-- ==== Sys2Proof/Word.lean ====
section
/-! DEFINITION. The two word types of the block (00_scope.md R10, R13): the 32-bit value and its 8-bit lanes. -/

namespace Sys2Proof

/-- The value domain of the block: 32 bits, unsigned (R10, R13, R15). -/
abbrev Word32 := BitVec 32

/-- One lane of a `Word32`: 8 bits, unsigned (R10, R13). -/
abbrev Byte := BitVec 8

end Sys2Proof
end

