-- ==== Sys2Proof/Config.lean ====
section
/-! DEFINITION. What an instance of the block fixes (the open parameter IN_W, 00_scope.md R11), and the one value the
spec leaves undefined (`out_data` while `out_valid = 0`, 60_exceptions.md R88). -/

namespace Sys2Proof

/-- An instance of the block. Its only parameter is IN_W >= 32 (R11, U2); it is held as the width IN_W - 32 of the
field `hi` of a request (30_encoding.md R47), so that every value of this type is a legal instance (log 3). -/
structure Config where
  /-- IN_W - 32, the width of the ignored field `hi`. -/
  hiWidth : Nat
  deriving DecidableEq, Repr

/-- IN_W, the width in bits of the port `in_data` (R11). -/
def Config.inW (c : Config) : Nat := 32 + c.hiWidth

/-- The instance whose words spec/opcode_table.json numbers: IN_W = 32, request words of 33 bits (R51). -/
def Config.tableInstance : Config := ⟨0⟩

/-- The free value of the model: the bits of `out_data` in the n-th response with `out_valid = 0`. Any value,
possibly different each time (R88, D4, U1); it has no body, so no proof can know it (log 4). -/
opaque Config.freeOutData : Nat → Word32

end Sys2Proof
end

