-- ==== Sys2Proof/Syntax.lean ====
section
/-! DEFINITION. The request kinds of the block: one constructor per row of spec/opcode_table.json
(30_encoding.md R51), and the two pseudo-operations (R58). -/

namespace Sys2Proof

/-- A request, as the two rows of the opcode map tell them apart. The argument is what the port `in_data` carries,
read as an unsigned integer (10_state.md R17); that it fits IN_W bits is `Instr.wellFormed`. -/
inductive Instr where
  /-- REV32: `in_valid = 1`, the operand on `in_data` (40_reverse.md R61). -/
  | rev32 (inData : Nat)
  /-- INVALID: `in_valid = 0`; the data is kept only so that no bit of the word is lost, and is ignored
  (40_reverse.md R62, log 8). -/
  | invalid (inData : Nat)
  deriving DecidableEq, Repr

/-- The port `in_valid` of a request (R49). -/
def Instr.inValid : Instr → Bool
  | .rev32 _ => true
  | .invalid _ => false

/-- The port `in_data` of a request, as an unsigned integer (R17). -/
def Instr.inData : Instr → Nat
  | .rev32 d => d
  | .invalid d => d

/-- The pseudo-operation BE2LE, exactly REV32 (R58). -/
def Instr.be2le (inData : Nat) : Instr := .rev32 inData

/-- The pseudo-operation LE2BE, exactly REV32 (R58). -/
def Instr.le2be (inData : Nat) : Instr := .rev32 inData

end Sys2Proof
end

