-- ==== Sys2Proof/WellFormed.lean ====
section
/-! DEFINITION. Which requests an instance of the block can be given: the operand fits the port `in_data`
(30_encoding.md R47, R59; 93_implementation_defined.md U5). -/

namespace Sys2Proof

/-- The data of the request fits the IN_W bits of `in_data` (R47, R59). -/
def Instr.wellFormed (c : Config) : Instr → Bool
  | .rev32 d => decide (d < 2 ^ c.inW)
  | .invalid d => decide (d < 2 ^ c.inW)

/-- A number that is a request word of the instance: it has no bit above bit IN_W (R47). -/
def Config.isRequestWord (c : Config) (w : Nat) : Bool := decide (w < 2 ^ (c.inW + 1))

end Sys2Proof
end

