-- ==== Sys2Proof/Decode.lean ====
section
/-! DEFINITION. Request words and the requests they stand for (30_encoding.md R47, R51), in both directions. A word
is the number whose bit i is bit i of REQ = (in_valid, in_data); it comes from the ports, not from a memory
(20_memory.md R46), so it has no byte order (log 7). -/

namespace Sys2Proof

/-- The mask of both rows of the opcode map: the bit `valid`, bit IN_W (R51). -/
def validMask (c : Config) : Nat := 2 ^ c.inW

/-- The match value of the row REV32 (R51). -/
def rev32Match (c : Config) : Nat := 2 ^ c.inW

/-- The match value of the row INVALID (R51). -/
def invalidMatch : Nat := 0

/-- The field `in_data` of a request word: bits IN_W-1 to 0, that is `hi` and `value` together (R47). -/
def dataField (c : Config) (w : Nat) : Nat := w % 2 ^ c.inW

/-- Why a number is no request word. -/
inductive DecodeError where
  /-- It has a bit above bit IN_W, where the instance has no wire (R47, U5, log 5). Raised by `decode`; safe. -/
  | wordTooWide
  deriving DecidableEq, Repr

/-- The opcode map (R51): one bit selects the row and every other bit belongs to `in_data`. Total on the request words
(R55); a number that is none is rejected by name. -/
def decode (c : Config) (w : Nat) : Except DecodeError Instr :=
  if w < 2 ^ (c.inW + 1) then
    if w &&& validMask c = rev32Match c then .ok (.rev32 (dataField c w))
    else .ok (.invalid (dataField c w))
  else .error .wordTooWide

/-- The request word of a request, `{valid, in_data}` (R47, R51). -/
def encode (c : Config) : Instr → Nat
  | .rev32 d => rev32Match c + d
  | .invalid d => invalidMatch + d

/-- A word of spec/opcode_table.json, whose bits are numbered for IN_W = 32, as the word of another instance: the
IN_W - 32 bits of `hi` go in below the bits from bit 32 up, as zeros (R51). -/
def tableWordFor (c : Config) (w : Nat) : Nat := (w / 2 ^ 32) * 2 ^ c.inW + w % 2 ^ 32

/-- A word of spec/opcode_table.json, given by its lowest `nbits` bits (the bits above them are 0). A row has 33 bits;
the bits that fill its last byte belong to no wire and are dropped (log 7). -/
def tableWord (nbits w : Nat) : Nat := w % 2 ^ nbits % 2 ^ (Config.tableInstance.inW + 1)

/-- The request the decoder reads from a word of spec/opcode_table.json. The table's instance has IN_W = 32 (R51). -/
def decodeTableWord (nbits w : Nat) : Option Instr :=
  match decode Config.tableInstance (tableWord nbits w) with
  | .ok i => some i
  | .error _ => none

end Sys2Proof
end

