-- ==== Sys2Proof/Machine/State.lean ====
section
/-! DEFINITION. The state of a run, and the reasons a step can stop. The block itself has no state (10_state.md R16,
R19 to R27): every field below is the model's own. They hold the instance, what the environment has still to present,
what it has observed, and a count of the undefined values drawn. -/

namespace Sys2Proof.Machine

/-- A response, as the two output ports show it (10_state.md R17, 30_encoding.md R48). -/
structure Response where
  /-- The port `out_valid`: a number is returned. -/
  outValid : Bool
  /-- The port `out_data`: the result if `outValid`, else undefined (a free value, log 4). -/
  outData : Word32
  deriving DecidableEq, Repr

/-- Nothing stops the block with a fault: it never traps and never lacks a step (30_encoding.md R55, 60_exceptions.md
R95, 93_implementation_defined.md section 1). The type is empty, so no step can answer one (log 16). -/
inductive Fault where
  deriving DecidableEq, Repr

/-- Why the model refuses a step. -/
inductive Refusal where
  /-- Raised by an arm of `exec` whose instruction has no meaning yet; no arm is left so. Safe. -/
  | notModelled (mnemonic : String)
  /-- Raised by `step` when the environment's next word has a bit above bit IN_W: a number that the ports cannot carry
  is no request (30_encoding.md R47, R59; U5, log 5). Safe: the model stops where the spec has no behaviour. -/
  | notOnPorts
  deriving DecidableEq, Repr

/-- A run of one instance (10_state.md R18). Plain data; no field belongs to the block. -/
structure State where
  /-- The instance: IN_W, the same for the whole run (R11, R54; log 3). -/
  cfg : Config
  /-- The request words the environment has still to present, the next one first (R18, R100; log 1). -/
  requests : List Nat
  /-- The responses so far, the oldest first: the observation of the run (R18; log 2). -/
  responses : List Response
  /-- How many free values of `out_data` have been drawn (R88; log 4). -/
  freeDraws : Nat
  deriving DecidableEq, Repr

/-- A run before its first request. The spec states no reset value because nothing is stored (R27, R105); the
values here are the model's: the table's instance (log 3), nothing presented (log 1), nothing observed (log 2), no
free value drawn (log 4). -/
def State.reset : State :=
  { cfg := Config.tableInstance, requests := [], responses := [], freeDraws := 0 }

end Sys2Proof.Machine
end

