-- ==== Sys2Proof/Machine/Flags.lean ====
section
/-! DEFINITION. The one status indication, `out_valid`: it is part of the response and never stored (10_state.md R21,
60_exceptions.md R88), and the ways to read a response (30_encoding.md R48). -/

namespace Sys2Proof.Machine

/-- The response that carries a number (R61). -/
def Response.number (w : Word32) : Response := ⟨true, w⟩

/-- The response "no result", with whatever the undefined bits of `out_data` show (R62, R88). -/
def Response.noResult (undefinedBits : Word32) : Response := ⟨false, undefinedBits⟩

/-- The functional view of a response (R48): what a consumer that checks `out_valid` before it uses `out_data` gets
(70_reset_and_hazards.md R109). -/
def Response.toOption (r : Response) : Option Word32 := if r.outValid then some r.outData else none

/-- The error conditions of the block: one, with no code and no payload (60_exceptions.md R90, D11). -/
inductive Condition where
  /-- The input was not a valid numeric quantity (R88). -/
  | noResult
  deriving DecidableEq, Repr

/-- The condition a response reports: `out_valid = 0` is the whole report (R90). -/
def Response.condition (r : Response) : Option Condition := if r.outValid then none else some .noResult

/-- The response word RSP, 33 bits: `out_valid` in bit 32 and `out_data` in bits 31 to 0 (R48). -/
def Response.word (r : Response) : BitVec 33 := BitVec.ofBool r.outValid ++ r.outData

/-- The response that a response word stands for (R48). -/
def Response.ofWord (w : BitVec 33) : Response := ⟨w.getLsbD 32, w.extractLsb' 0 32⟩

end Sys2Proof.Machine
end

