-- ==== Sys2Proof/Machine/Operands.lean ====
section
/-! DEFINITION. Lanes, normalisation and the assembly of the operand (00_scope.md R12, R13; 30_encoding.md R50). -/

namespace Sys2Proof.Machine

/-- Lane i of a value: bits 8i+7 to 8i, lane 0 the least significant (R12, R31). -/
def lane (v : Word32) (i : Fin 4) : Byte := v.extractLsb' (8 * i.val) 8

/-- The value in [0, 2^32 - 1] congruent to `n` modulo 2^32; the modulo is the floored one (R13; D15 and log 9 for a
negative `n`). -/
def norm32 (n : Int) : Word32 := BitVec.ofNat 32 (n % 2 ^ 32).toNat

/-- The operand of REV32: the low 32 bits of `in_data` (R50). -/
def operand (inData : Nat) : Word32 := norm32 inData

end Sys2Proof.Machine
end

