-- ==== Sys2Proof/Machine/Ops.lean ====
section
/-! DEFINITION. The shared operations: the byte reversal (40_reverse.md R61), the response function `respond` of the
spec's functional view (R61, R62, R80), and the three ways an invocation can change the state of a run: the
environment presents a request, the block answers a number, the block answers "no result" (60_exceptions.md R88; this
stands where other machines take an exception: there is no trap, R95). -/

namespace Sys2Proof.Machine

/-- The byte reversal: lane 0 becomes the most significant, lane 3 the least significant (R61). -/
def reverse32 (v : Word32) : Word32 := lane v 0 ++ lane v 1 ++ lane v 2 ++ lane v 3

/-- The functional view of the block (R61, R62, R116): validity first, then normalisation, then reversal (R80). -/
def respond (inValid : Bool) (inData : Nat) : Option Word32 :=
  if inValid then some (reverse32 (operand inData)) else none

/-- `respond` on a request word: bit IN_W is `in_valid`, the bits below it are `in_data` (30_encoding.md R47). -/
def respondWord (c : Config) (w : Nat) : Option Word32 := respond (w.testBit c.inW) (w % 2 ^ c.inW)

/-- The environment puts a request word next on the ports (70_reset_and_hazards.md R108; log 1). -/
def State.present (s : State) (w : Nat) : State := { s with requests := w :: s.requests }

/-- The word that is next on the ports, and the run without it; none where the environment presents no further request
(R113). -/
def State.nextRequest (s : State) : Option (Nat × State) :=
  match s.requests with
  | [] => none
  | w :: rest => some (w, { s with requests := rest })

/-- The block gives a response; the environment observes it (R18; log 2). Nothing else changes. -/
def State.emit (s : State) (r : Response) : State := { s with responses := s.responses ++ [r] }

/-- The block answers "no result" (R62, R88): `out_valid = 0`, and `out_data` is a fresh free value (log 4). The
condition records nothing else and leaves no trace (R96). -/
def State.emitNoResult (s : State) : State :=
  { s.emit (.noResult (Config.freeOutData s.freeDraws)) with freeDraws := s.freeDraws + 1 }

end Sys2Proof.Machine
end

