-- ==== Sys2Proof/Machine/Reverse.lean ====
section
/-! DEFINITION. The meanings of the one instruction family: REV32 (40_reverse.md R61) and INVALID (R62). The request
has already left the environment's list when a meaning runs (Machine/Step.lean). -/

namespace Sys2Proof.Machine

/-- REV32 (R61): the response is the byte-reversed operand; no flag, no state, no exception. -/
def execRev32 (inData : Nat) (s : State) : Host.Outcome State Fault Refusal :=
  .next (s.emit (.number (reverse32 (operand inData))))

/-- INVALID (R62): the response is "no result", whatever `in_data` holds (30_encoding.md R53). -/
def execInvalid (_inData : Nat) (s : State) : Host.Outcome State Fault Refusal :=
  .next s.emitNoResult

end Sys2Proof.Machine
end

