-- ==== Sys2Proof/Machine/Dispatch.lean ====
section
/-! DEFINITION. One arm per request kind. -/

namespace Sys2Proof.Machine

def exec (i : Instr) (s : State) : Host.Outcome State Fault Refusal :=
  match i with
  | .rev32 inData => Sys2Proof.Machine.execRev32 inData s
  | .invalid inData => Sys2Proof.Machine.execInvalid inData s

end Sys2Proof.Machine
end

