-- ==== Sys2Proof/Machine/Step.lean ====
section
/-! DEFINITION. One invocation (10_state.md R18): the environment's next request word is taken, decoded and answered.
There is no program counter (R20) and no time (70_reset_and_hazards.md R112). -/

namespace Sys2Proof.Machine

/-- One step of a run. With a request, it is one invocation: the word leaves the environment's list and the request it
decodes to is answered. With none, the run has ended (R113) and nothing happens (log 6). -/
def step (s : State) : Host.Outcome State Fault Refusal :=
  match s.nextRequest with
  | none => .next s
  | some (w, t) =>
    match decode s.cfg w with
    | .ok i => exec i t
    | .error .wordTooWide => .refused .notOnPorts

/-- The environment presents the request of a word of spec/opcode_table.json next, as the word of this run's instance
(log 7). It stands for the environment's choice of a request (log 1). -/
def State.withFetchWord (s : State) (nbits w : Nat) : State :=
  s.present (tableWordFor s.cfg (tableWord nbits w))

end Sys2Proof.Machine
end

