-- ==== Sys2Proof/Machine/Formatters.lean ====
section
/-! DEFINITION. The peripheral formatters (41_formatters.md R81 to R86): reference functions, no part of the block.
Strings are lists of characters (log 10). They take numbers only, so "no result" cannot be formatted (R85). -/

namespace Sys2Proof.Machine

/-- The characters of the upper-case hexadecimal digits, in order (R82). -/
def hexDigits : Vector Char 16 :=
  #v['0', '1', '2', '3', '4', '5', '6', '7', '8', '9', 'A', 'B', 'C', 'D', 'E', 'F']

/-- The digit of a 4-bit value (R82). -/
def hexDigit (n : BitVec 4) : Char := hexDigits[n.toNat]'(n.isLt)

/-- The nibble k of a value: bits 4k+3 to 4k. -/
def nibble (v : Word32) (k : Nat) : BitVec 4 := v.extractLsb' (4 * k) 4

/-- The prefix 0x and the eight digits, most significant first, of the normalised value (R82). -/
def toHex (value : Int) : List Char :=
  '0' :: 'x' :: [7, 6, 5, 4, 3, 2, 1, 0].map fun k => hexDigit (nibble (norm32 value) k)

/-- The two digits of a byte (R83). -/
def hex2 (b : Byte) : List Char := [hexDigit (b.extractLsb' 4 4), hexDigit (b.extractLsb' 0 4)]

/-- The four bytes of the normalised value, most significant first, with single spaces between (R83, R84). -/
def displayBytes (value : Int) : List Char :=
  let v := norm32 value
  hex2 (lane v 3) ++ [' '] ++ hex2 (lane v 2) ++ [' '] ++ hex2 (lane v 1) ++ [' '] ++ hex2 (lane v 0)

end Sys2Proof.Machine
end

