-- ==== Sys2Proof/Machine/ByteOrder.lean ====
section
/-! DEFINITION. Byte sequences and the two byte orders (20_memory.md R32, R36 to R38). A byte sequence is a value
local to one evaluation, not a memory of the block (10_state.md R25). -/

namespace Sys2Proof.Machine

/-- A byte sequence of length 4; index 0 is the first byte (R36, D8). -/
abbrev ByteSeq := Vector Byte 4

/-- The value written most significant byte first (R37). -/
def bytesBE (v : Word32) : ByteSeq := #v[lane v 3, lane v 2, lane v 1, lane v 0]

/-- The value written least significant byte first (R37). -/
def bytesLE (v : Word32) : ByteSeq := #v[lane v 0, lane v 1, lane v 2, lane v 3]

/-- The value read with the first byte most significant (R38). -/
def fromBE (b : ByteSeq) : Word32 := b[0] ++ b[1] ++ b[2] ++ b[3]

/-- The value read with the first byte least significant (R38). -/
def fromLE (b : ByteSeq) : Word32 := b[3] ++ b[2] ++ b[1] ++ b[0]

/-- The byte sequence read backwards (R39). -/
def reverseSeq (b : ByteSeq) : ByteSeq := #v[b[3], b[2], b[1], b[0]]

end Sys2Proof.Machine
end

