-- ==== Sys2Proof/Machine/Forms.lean ====
section
/-! DEFINITION. The other forms of the byte reversal that the spec gives beside R61: shift and mask (40_reverse.md
R63), rotations (R78), the buffer (20_memory.md R40) and the map of bit positions (R64). They are reference functions;
the meanings use `reverse32` alone, and that they agree with it is stated, not assumed. -/

namespace Sys2Proof.Machine

/-- Strategy (a), lanes masked in place (R63, first form; 90_conflicts.md C1). -/
def reverseByMasks (v : Word32) : Word32 :=
  ((v &&& 0x000000FF#32) <<< 24) ||| ((v &&& 0x0000FF00#32) <<< 8) |||
    ((v &&& 0x00FF0000#32) >>> 8) ||| ((v &&& 0xFF000000#32) >>> 24)

/-- Strategy (a), lanes extracted to bit 0 first (R63, second form). -/
def reverseByExtraction (v : Word32) : Word32 :=
  ((v &&& 0xFF#32) <<< 24) ||| (((v >>> 8) &&& 0xFF#32) <<< 16) |||
    (((v >>> 16) &&& 0xFF#32) <<< 8) ||| ((v >>> 24) &&& 0xFF#32)

/-- Strategy (b), written most significant byte first and read the other way (R40). -/
def reverseByBufferBE (v : Word32) : Word32 := fromLE (bytesBE v)

/-- Strategy (b), written least significant byte first and read the other way (R40). -/
def reverseByBufferLE (v : Word32) : Word32 := fromBE (bytesLE v)

/-- Two masked rotations (R78, first form). -/
def reverseByRotations (v : Word32) : Word32 :=
  (v &&& 0x00FF00FF#32).rotateLeft 24 ||| (v &&& 0xFF00FF00#32).rotateLeft 8

/-- Exchange the halves, then the bytes inside each half (R78, second form). -/
def reverseByHalves (v : Word32) : Word32 :=
  ((v.rotateLeft 16 &&& 0x00FF00FF#32) <<< 8) ||| ((v.rotateLeft 16 &&& 0xFF00FF00#32) >>> 8)

/-- The bit of the operand that bit i of the result shows, for i below 32 (R64). -/
def sourceBit (i : Nat) : Nat := 24 - 8 * (i / 8) + i % 8

end Sys2Proof.Machine
end

