-- ==== Sys2Proof/Machine/Listing.lean ====
section
/-! DEFINITION. The listing notation in which the spec writes sequences of requests (30_encoding.md R57 to R59), and
how an environment carries one out: literals, labels, and `@k`, which wires an earlier result to a later input. The
block knows nothing of it (R57); this file only drives `step` (log 11). -/

namespace Sys2Proof.Machine

/-- An operand of a listing line (R57). -/
inductive ListingOperand where
  /-- A literal (R59). -/
  | literal (n : Nat)
  /-- `@k`: the `out_data` of the earlier request labelled k. -/
  | result (k : Nat)
  deriving DecidableEq, Repr

/-- The request of a listing line (R57, R58). -/
inductive ListingOp where
  | rev32 (x : ListingOperand)
  | be2le (x : ListingOperand)
  | le2be (x : ListingOperand)
  | invalid (x : Option ListingOperand)
  deriving DecidableEq, Repr

/-- A line: an optional label and a request (R57). -/
structure ListingLine where
  label : Option Nat
  op : ListingOp
  deriving DecidableEq, Repr

/-- Why a listing is not one (R57, R59). -/
inductive ListingError where
  /-- A literal that is not below 2^IN_W (R59). -/
  | literalTooWide
  /-- `@k` with no earlier request labelled k (R57). -/
  | unknownLabel
  /-- `@k` of a request whose response was "no result" (R57, 70_reset_and_hazards.md R109). -/
  | noResultUsed
  /-- The step the line drives did not answer a next state. -/
  | stopped
  deriving DecidableEq, Repr

/-- The functional responses of the labelled requests so far, the latest first. -/
abbrev ListingResults := List (Nat × Option Word32)

/-- The number an operand puts on `in_data`; a result is zero-extended (R57, R59). -/
def resolveOperand (c : Config) (env : ListingResults) : ListingOperand → Except ListingError Nat
  | .literal n => if n < 2 ^ c.inW then .ok n else .error .literalTooWide
  | .result k =>
    match env.lookup k with
    | some (some w) => .ok w.toNat
    | some none => .error .noResultUsed
    | none => .error .unknownLabel

/-- The request of a line. `anyData` is what `in_data` carries where the line leaves it open (R57). -/
def lineInstr (c : Config) (env : ListingResults) (anyData : Nat) : ListingOp → Except ListingError Instr
  | .rev32 x => (resolveOperand c env x).map .rev32
  | .be2le x => (resolveOperand c env x).map .be2le
  | .le2be x => (resolveOperand c env x).map .le2be
  | .invalid (some x) => (resolveOperand c env x).map .invalid
  | .invalid none => .ok (.invalid (anyData % 2 ^ c.inW))

/-- The results with the last response of `s` under its label, if it has one. -/
def recordResult (env : ListingResults) (label : Option Nat) (s : State) : ListingResults :=
  match label, s.responses.getLast? with
  | some k, some r => (k, r.toOption) :: env
  | _, _ => env

/-- Carry out a listing: a straight line of requests, each presented to the block in turn (R57). -/
def runListing (anyData : Nat) : List ListingLine → ListingResults → State → Except ListingError State
  | [], _, s => .ok s
  | l :: rest, env, s =>
    match lineInstr s.cfg env anyData l.op with
    | .error e => .error e
    | .ok i =>
      match step (s.present (encode s.cfg i)) with
      | .next t => runListing anyData rest (recordResult env l.label t) t
      | .fault _ => .error .stopped
      | .refused _ => .error .stopped

/-- The value of a digit, upper or lower case (R59). -/
def digitValue (ch : Char) : Option Nat :=
  if '0' ≤ ch ∧ ch ≤ '9' then some (ch.toNat - '0'.toNat)
  else if 'A' ≤ ch ∧ ch ≤ 'F' then some (ch.toNat - 'A'.toNat + 10)
  else if 'a' ≤ ch ∧ ch ≤ 'f' then some (ch.toNat - 'a'.toNat + 10)
  else none

/-- Digits read after a value `acc`, most significant first, each below the base (R59). -/
def readDigits (base : Nat) : Nat → List Char → Option Nat
  | acc, [] => some acc
  | acc, ch :: rest =>
    match digitValue ch with
    | some d => if d < base then readDigits base (acc * base + d) rest else none
    | none => none

/-- The value of a literal: 0x and hexadecimal digits, or decimal digits; `_` has no value (R59). -/
def parseLiteral (text : List Char) : Option Nat :=
  match text.filter (fun ch => ch != '_') with
  | [] => none
  | '0' :: 'x' :: ch :: rest => readDigits 16 0 (ch :: rest)
  | ch :: rest => readDigits 10 0 (ch :: rest)

end Sys2Proof.Machine
end

