-- ==== Sys2Proof/Safety.lean ====
section
/-! DEFINITION. The terms in which claims about runs are made: several steps, the end of a run
(70_reset_and_hazards.md R113), and the two invariants of a run. -/

namespace Sys2Proof.Machine

/-- n steps, stopping at the first one that does not answer a next state. -/
def run : Nat → State → Host.Outcome State Fault Refusal
  | 0, s => .next s
  | n + 1, s =>
    match step s with
    | .next t => run n t
    | .fault r => .fault r
    | .refused r => .refused r

/-- The run has ended: the environment presents no further request (R113). -/
def State.finished (s : State) : Bool := s.requests.isEmpty

/-- Every word the environment has still to present is a request word of the instance (30_encoding.md R47). -/
def State.queueWellFormed (s : State) : Bool := s.requests.all (fun w => s.cfg.isRequestWord w)

/-- What the environment has observed, in the functional view (10_state.md R18, 30_encoding.md R48). -/
def State.observed (s : State) : List (Option Word32) := s.responses.map Response.toOption

/-- The books of a run over the request words `all` balance: some first part of them has been answered, word by word
as `respondWord` says, and the rest is still to come (R18, 20_memory.md R44). -/
def State.accountsFor (s : State) (all : List Nat) : Prop :=
  ∃ answered : List Nat, all = answered ++ s.requests ∧ s.observed = answered.map (respondWord s.cfg)

/-- A run of `s` has answered exactly the request words `ws`, in their order: they have left the list, the
observation has grown by their responses, and every earlier response stands (R18, R113). -/
def State.answeredExactly (s t : State) (ws : List Nat) : Prop :=
  t.cfg = s.cfg ∧ s.requests = ws ++ t.requests ∧ s.responses <+: t.responses ∧
    t.observed = s.observed ++ ws.map (respondWord s.cfg)

end Sys2Proof.Machine
end

