-- ==== Sys2Proof/Machine/Runs.lean ====
section
/-! DEFINITION. Runs over an infinite sequence of requests (10_state.md R18). Such a sequence is a function of the
position, and so is the run: neither is part of State, which is plain data (log 1). -/

namespace Sys2Proof.Machine

/-- One invocation: the environment presents a request word and the block answers it (R18). -/
def invoke (s : State) (w : Nat) : Host.Outcome State Fault Refusal := step (s.present w)

/-- `states` is the infinite run in which the environment presents `env 0`, `env 1`, … : every invocation takes each
state to the next one (R18). -/
def infiniteRun (env : Nat → Nat) (states : Nat → State) : Prop :=
  ∀ n, invoke (states n) (env n) = .next (states (n + 1))

/-- `obs` is the observation of an infinite run: the n-th invocation adds the response `obs n`, in the functional view,
and keeps what was observed before (R18, 30_encoding.md R48). -/
def observesForever (states : Nat → State) (obs : Nat → Option Word32) : Prop :=
  ∀ n, (states (n + 1)).observed = (states n).observed ++ [obs n]

/-- The run `s` with the first n words of an infinite sequence put before the requests it has still to answer: the
finite run that begins the infinite one (R18). -/
def State.presentFirst (s : State) (env : Nat → Nat) (n : Nat) : State :=
  { s with requests := (List.range n).map env ++ s.requests }

end Sys2Proof.Machine
end

