-- ==== Sys2Proof/Machine/System.lean ====
section
/-! DEFINITION. The block seen at its ports, and two copies of it in cascade (10_state.md R17, 40_reverse.md R72). -/

namespace Sys2Proof.Machine

/-- The outputs for the inputs of one instant (R16, R17), where `undefinedBits` is what the wires of `out_data` show
if the response is "no result" (R88). -/
def portResponse (inValid : Bool) (inData : Nat) (undefinedBits : Word32) : Response :=
  match respond inValid inData with
  | some w => .number w
  | none => .noResult undefinedBits

/-- Two copies, the outputs of the first on the inputs of the second, the higher input bits zero (R72; log 17). The
last two arguments are what the undefined bits of each copy show. -/
def cascade (inValid : Bool) (inData : Nat) (bits₁ bits₂ : Word32) : Response :=
  portResponse (portResponse inValid inData bits₁).outValid (portResponse inValid inData bits₁).outData.toNat bits₂

end Sys2Proof.Machine
end

