-- ==== Sys2Proof/Certificates/Slice0/Obligations.lean ====
section
/-! DEFINITION. The statements about the block. Those on values come first (lanes, normalisation, the byte reversal and
its forms), then the two requests, encodings, single steps, runs, and the reference functions. Each docstring names
the rule or the section it formalises, and the model's own choices it rests on. -/

open Sys2Proof Sys2Proof.Machine

/-! ### Values -/

/-- 40_reverse.md R66, the round-trip guarantee. First as a law of the function, then lane by lane, then in request
terms: a number answered to one request and presented again gives back the normalised operand. -/
def Obligations.ReverseTwiceIsIdentity : Prop :=
  (∀ v : Word32, reverse32 (reverse32 v) = v) ∧
  (∀ (v : Word32) (i : Fin 4),
    lane (reverse32 (reverse32 v)) i = lane (reverse32 v) i.rev ∧ lane (reverse32 v) i.rev = lane v i) ∧
  (∀ (d : Nat) (r : Word32), respond true d = some r → respond true r.toNat = some (norm32 d))

/-- 40_reverse.md R68. Operands congruent modulo 2^32 give the same result; a number of 33 bits with bit 32 set gives
what it gives with that bit cleared; the round trip recovers the normalised operand, never the discarded bits. -/
def Obligations.NormalisationLaw : Prop :=
  (∀ a b : Int, a % 2 ^ 32 = b % 2 ^ 32 → reverse32 (norm32 a) = reverse32 (norm32 b)) ∧
  (∀ v : Word32, respond true (2 ^ 32 + v.toNat) = respond true v.toNat) ∧
  (∀ a : Int, reverse32 (reverse32 (norm32 a)) = norm32 a) ∧
  (∀ a : Int, ∃ b : Int, a ≠ b ∧ reverse32 (reverse32 (norm32 a)) = reverse32 (reverse32 (norm32 b)))

/-- 30_encoding.md R50. The operand is the low 32 bits of `in_data` and of the request word, whatever the width of
the port: no extension, no scaling, no shift. -/
def Obligations.OperandIsLowWord : Prop :=
  (∀ (c : Config) (d : BitVec c.inW), operand d.toNat = d.extractLsb' 0 32) ∧
  (∀ (c : Config) (w : BitVec (c.inW + 1)), operand (dataField c w.toNat) = w.extractLsb' 0 32) ∧
  (∀ d : Nat, operand d = norm32 d ∧ (operand d).toNat = d % 2 ^ 32)

/-- 00_scope.md section 5 (`norm32`): the one value congruent to `n`. For a negative integer the floored modulo is the
spec's decision D15 (log 9). -/
def Obligations.NormalisationIsFlooredModulo : Prop :=
  (∀ n : Int, ((norm32 n).toNat : Int) = n % 2 ^ 32) ∧
  (∀ (n : Int) (w : Word32), (w.toNat : Int) % 2 ^ 32 = n % 2 ^ 32 → w = norm32 n) ∧
  norm32 (-1) = 0xFFFFFFFF#32 ∧ norm32 (-0x12345678) = 0xEDCBA988#32

/-- 20_memory.md section 1 and 00_scope.md section 5: a value is the sum of its lanes by weight. -/
def Obligations.ValueIsSumOfLanes : Prop :=
  ∀ v : Word32, v.toNat = (lane v 3).toNat * 16777216 + (lane v 2).toNat * 65536 + (lane v 1).toNat * 256 +
    (lane v 0).toNat

/-- 40_reverse.md section 2, the bit-level form (the spec's own derivation from R61), and the map is its own inverse. -/
def Obligations.BitMapOfReversal : Prop :=
  (∀ (v : Word32) (i : Nat), i < 32 → (reverse32 v).getLsbD i = v.getLsbD (8 * (3 - i / 8) + i % 8)) ∧
  (∀ (v : Word32) (i : Nat), i < 32 → (reverse32 v).getLsbD i = v.getLsbD (sourceBit i)) ∧
  (∀ i : Nat, i < 32 → sourceBit i < 32 ∧ sourceBit (sourceBit i) = i)

/-- 40_reverse.md section 2, "Byte reversal, not bit reversal": inside each lane the bits keep their order. The value
read with all 32 bits backwards (computed for contrast, G4) is another one; the two agree on some operands only. -/
def Obligations.ByteReversalIsNotBitReversal : Prop :=
  (∀ (v : Word32) (i : Fin 4) (k : Nat), (lane (reverse32 v) i).getLsbD k = (lane v i.rev).getLsbD k) ∧
  reverse32 0x00000001#32 = 0x01000000#32 ∧ reverse32 0x12345678#32 = 0x78563412#32 ∧
  (∀ i < 32, (0x80000000#32).getLsbD i = (0x00000001#32).getLsbD (31 - i)) ∧
  (∀ i < 32, (0x1E6A2C48#32).getLsbD i = (0x12345678#32).getLsbD (31 - i)) ∧
  (∀ i < 32, (reverse32 0#32).getLsbD i = (0#32).getLsbD (31 - i)) ∧
  (∀ i < 32, (reverse32 0xFFFFFFFF#32).getLsbD i = (0xFFFFFFFF#32).getLsbD (31 - i)) ∧
  (∀ i < 32, (reverse32 0x000000FF#32).getLsbD i = (0x000000FF#32).getLsbD (31 - i)) ∧
  (∀ i < 32, (reverse32 0xFF000000#32).getLsbD i = (0xFF000000#32).getLsbD (31 - i)) ∧
  (∀ i < 32, (reverse32 0x00FF00FF#32).getLsbD i = (0x00FF00FF#32).getLsbD (31 - i)) ∧
  (∃ v : Word32, ∃ i < 32, (reverse32 v).getLsbD i ≠ v.getLsbD (31 - i))

/-- 40_reverse.md section 2, strategy (a): both shift-and-mask forms are the byte reversal, and in the first `|` may be
`+` or `^` because the terms occupy disjoint lanes. -/
def Obligations.ShiftAndMaskForms : Prop :=
  ∀ v : Word32,
    reverseByMasks v = reverse32 v ∧ reverseByExtraction v = reverse32 v ∧
    ((v &&& 0x000000FF#32) <<< 24) + ((v &&& 0x0000FF00#32) <<< 8) + ((v &&& 0x00FF0000#32) >>> 8) +
      ((v &&& 0xFF000000#32) >>> 24) = reverse32 v ∧
    ((v &&& 0x000000FF#32) <<< 24) ^^^ ((v &&& 0x0000FF00#32) <<< 8) ^^^ ((v &&& 0x00FF0000#32) >>> 8) ^^^
      ((v &&& 0xFF000000#32) >>> 24) = reverse32 v

/-- 20_memory.md section 2, strategy (b): writing the buffer in one byte order and reading it in the other is the byte
reversal, whichever order is written; so the two strategies agree. -/
def Obligations.BufferStrategyAgrees : Prop :=
  ∀ v : Word32,
    reverseByBufferBE v = reverse32 v ∧ reverseByBufferLE v = reverse32 v ∧ reverseByBufferBE v = reverseByMasks v

/-- 20_memory.md section 2: same-order round trips are the identity, and the two orders are each other's reverse. -/
def Obligations.SameOrderRoundTrips : Prop :=
  (∀ v : Word32, fromBE (bytesBE v) = v ∧ fromLE (bytesLE v) = v ∧ bytesLE v = reverseSeq (bytesBE v)) ∧
  (∀ b : ByteSeq, bytesBE (fromBE b) = b ∧ bytesLE (fromLE b) = b ∧ fromLE b = fromBE (reverseSeq b))

/-- 40_reverse.md section 2, the two decompositions into rotations. -/
def Obligations.RotationForms : Prop :=
  ∀ v : Word32, reverseByRotations v = reverse32 v ∧ reverseByHalves v = reverse32 v

/-- 40_reverse.md section 3, bijection (the spec's derivation from R66). -/
def Obligations.ReversalIsBijective : Prop :=
  Function.Bijective reverse32

/-- 40_reverse.md section 3, fixed points (the spec's derivation): the palindromes, 65536 of them, and every other
value lies on a 2-cycle. -/
def Obligations.FixedPointsArePalindromes : Prop :=
  (∀ v : Word32, reverse32 v = v ↔ lane v 0 = lane v 3 ∧ lane v 1 = lane v 2) ∧
  Set.ncard {v : Word32 | reverse32 v = v} = 65536 ∧
  (∀ v : Word32, reverse32 v ≠ v → reverse32 (reverse32 v) = v)

/-- 40_reverse.md section 3 (the spec's derivation from the bit map): the reversal commutes with every bitwise
operation, keeps the number of 1 bits, and commutes with no addition and keeps no order. -/
def Obligations.ReversalCommutesBitwise : Prop :=
  (∀ a b : Word32,
    reverse32 (a &&& b) = reverse32 a &&& reverse32 b ∧ reverse32 (a ||| b) = reverse32 a ||| reverse32 b ∧
    reverse32 (a ^^^ b) = reverse32 a ^^^ reverse32 b ∧ reverse32 (~~~a) = ~~~(reverse32 a)) ∧
  (∀ a : Word32,
    (List.range 32).countP (fun i => (reverse32 a).getLsbD i) = (List.range 32).countP (fun i => a.getLsbD i)) ∧
  (∃ a b : Word32, reverse32 (a + b) ≠ reverse32 a + reverse32 b) ∧
  (∃ a b : Word32, a < b ∧ reverse32 b < reverse32 a)

/-- 40_reverse.md section 3, cascade (the spec's derivation): two copies are the identity on normalised numbers and
pass "no result" through, whatever the undefined bits of either copy show. The wiring is the model's (log 17). -/
def Obligations.CascadeIsIdentity : Prop :=
  ∀ (d : Nat) (x y : Word32),
    cascade true d x y = .number (norm32 d) ∧ cascade false d x y = .noResult y ∧
    (cascade false d x y).toOption = none

/-! ### The two requests -/

/-- 40_reverse.md R61, whole. The row `valid = 1` decodes to REV32. It completes in every state: one response is
added, `out_valid = 1` and the lanes in the opposite order, and nothing else changes (no flag, no state, no
exception). Then the corner cases and the worked example. -/
def Obligations.Rev32AnswersReversedLanes : Prop :=
  (∀ (c : Config) (w : Nat), w < 2 ^ (c.inW + 1) → w.testBit c.inW = true →
    decode c w = .ok (.rev32 (w % 2 ^ c.inW))) ∧
  (∀ (d : Nat) (s : State), ∃ r : Word32,
    exec (.rev32 d) s = .next { s with responses := s.responses ++ [⟨true, r⟩] } ∧
    respond true d = some r ∧
    r = lane (norm32 d) 0 ++ lane (norm32 d) 1 ++ lane (norm32 d) 2 ++ lane (norm32 d) 3 ∧
    (∀ i : Fin 4, lane r i = lane (norm32 d) i.rev) ∧
    r.toNat = (lane (norm32 d) 0).toNat * 2 ^ 24 + (lane (norm32 d) 1).toNat * 2 ^ 16 +
      (lane (norm32 d) 2).toNat * 2 ^ 8 + (lane (norm32 d) 3).toNat ∧
    respond true r.toNat = some (norm32 d)) ∧
  (∀ (d e : Nat) (s : State), d % 2 ^ 32 = e % 2 ^ 32 → exec (.rev32 d) s = exec (.rev32 e) s) ∧
  respond true 0 = some 0#32 ∧ respond true 0xFFFFFFFF = some 0xFFFFFFFF#32 ∧
  (∀ b : Byte, respond true b.toNat = some (b ++ 0#24) ∧ respond true (b.toNat * 2 ^ 24) = some (0#24 ++ b)) ∧
  respond true 0x12345678 = some 0x78563412#32

/-- 40_reverse.md R62, whole. The row `valid = 0` decodes to INVALID. It completes in every state: one response is
added, `out_valid = 0`, whose bits of `out_data` nothing fixes (a free value, log 4), and the condition leaves no
trace: the next request is answered as it would be without it. Nothing is said of `freeDraws`, the model's own count
(log 4). The data makes no difference to the functional view (the undefined bits are not compared). A good number on
`in_data` does not help, and the number zero is not "no result". -/
def Obligations.InvalidAnswersNoResult : Prop :=
  (∀ (c : Config) (w : Nat), w < 2 ^ (c.inW + 1) → w.testBit c.inW = false →
    decode c w = .ok (.invalid (w % 2 ^ c.inW))) ∧
  (∀ (d : Nat) (s : State), ∃ (x : Word32) (n : Nat),
    exec (.invalid d) s = .next { s with responses := s.responses ++ [⟨false, x⟩], freeDraws := n } ∧
    (Response.mk false x).toOption = none ∧ respond false d = none) ∧
  (∀ (d e : Nat) (s : State), ∃ a b m n, a.toOption = b.toOption ∧
    exec (.invalid d) s = .next { s with responses := s.responses ++ [a], freeDraws := m } ∧
    exec (.invalid e) s = .next { s with responses := s.responses ++ [b], freeDraws := n }) ∧
  (∀ (d : Nat) (i : Instr) (s t : State), exec (.invalid d) s = .next t →
    ∃ a b m n, a.toOption = b.toOption ∧ exec i s = .next { s with responses := s.responses ++ [a], freeDraws := m } ∧
      exec i t = .next { t with responses := t.responses ++ [b], freeDraws := n }) ∧
  respond false 0x12345678 = none ∧ respond true 0 = some 0#32

/-- 70_reset_and_hazards.md section 5: the strict core function, the response function over it, and that what the machine
answers to either request is what they say. -/
def Obligations.MachineAnswersRespond : Prop :=
  (∀ d : Nat, respond true d = some (reverse32 (norm32 d)) ∧ respond false d = none) ∧
  (∀ (i : Instr) (s : State), ∃ r n,
    exec i s = .next { s with responses := s.responses ++ [r], freeDraws := n } ∧
    r.toOption = respond i.inValid i.inData)

/-- 60_exceptions.md R92: no operand at all, however wide, is an error of REV32; the answer is always a number. -/
def Obligations.NoNumberIsAnError : Prop :=
  ∀ (d : Nat) (s : State), ∃ r : Response,
    exec (.rev32 d) s = .next { s with responses := s.responses ++ [r] } ∧
    r.outValid = true ∧ r.condition = none ∧ r.toOption = some (reverse32 (norm32 d))

/-- 60_exceptions.md R94 and 40_reverse.md R80. Validity comes before everything: an invalid request is answered
"no result" whatever its data, bits above bit 31 included. Then the operand is normalised, and only then reversed:
reversing five bytes of a 40-bit operand and truncating afterwards would give another value. -/
def Obligations.ValidityThenNormalisationThenReversal : Prop :=
  (∀ (d : Nat) (s : State), ∃ x n,
    exec (.invalid d) s = .next { s with responses := s.responses ++ [⟨false, x⟩], freeDraws := n }) ∧
  (∀ d : Nat, respond false d = none) ∧
  (∀ (d : Nat) (s : State),
    exec (.rev32 d) s = .next { s with responses := s.responses ++ [⟨true, reverse32 (norm32 d)⟩] }) ∧
  respond true 0x0112345678 = some 0x78563412#32 ∧ respond true 0x0112345678 ≠ some 0x56341201#32

/-- 60_exceptions.md section 1 (D11): the one condition of the block is raised by INVALID and by nothing else. -/
def Obligations.ConditionRaisedByInvalidOnly : Prop :=
  (∀ a b : Condition, a = b) ∧
  (∀ (i : Instr) (s t : State), exec i s = .next t →
    ∃ r, t.responses = s.responses ++ [r] ∧ (r.condition = some .noResult ↔ ∃ d, i = .invalid d))

/-! ### Encodings -/

/-- 30_encoding.md sections 1 and 3 (the spec's decision D6): decoding the word of a well-formed request gives the
request back, in every instance and for every operand the port carries. -/
def Obligations.DecodeOfEncodeIsIdentity : Prop :=
  ∀ (c : Config) (i : Instr), i.wellFormed c = true → decode c (encode c i) = .ok i

/-- 30_encoding.md sections 1 and 3: each request word stands for one request only, and encoding it gives the word
back; so no bit of a word is lost. -/
def Obligations.EncodeOfDecodeIsIdentity : Prop :=
  ∀ (c : Config) (w : Nat) (i : Instr), decode c w = .ok i → encode c i = w ∧ i.wellFormed c = true

/-- 30_encoding.md section 3 (the spec's decision D6 and its derivation of totality): every request word matches
exactly one of the two rows, by mask and match, and decodes to that row's request. -/
def Obligations.EveryRequestWordMatchesOneRow : Prop :=
  ∀ (c : Config) (w : Nat), w < 2 ^ (c.inW + 1) →
    (w &&& validMask c = rev32Match c ∧ w &&& validMask c ≠ invalidMatch ∧
        decode c w = .ok (.rev32 (w % 2 ^ c.inW))) ∨
      (w &&& validMask c = invalidMatch ∧ w &&& validMask c ≠ rev32Match c ∧
        decode c w = .ok (.invalid (w % 2 ^ c.inW)))

/-- 30_encoding.md section 4, the worked encodings: the same digits are one request for IN_W = 32 and another for
IN_W = 33. -/
def Obligations.WorkedEncodingsDecode : Prop :=
  decode ⟨0⟩ 0x112345678 = .ok (.rev32 0x12345678) ∧
  decode ⟨0⟩ 0x1000000FF = .ok (.rev32 255) ∧
  decode ⟨1⟩ 0x312345678 = .ok (.rev32 0x112345678) ∧
  decode ⟨1⟩ 0x212345678 = .ok (.rev32 0x12345678) ∧
  decode ⟨32⟩ 0x1FFFFFFFF00000001 = .ok (.rev32 0xFFFFFFFF00000001) ∧
  decode ⟨0⟩ 0x012345678 = .ok (.invalid 0x12345678) ∧
  decode ⟨1⟩ 0x112345678 = .ok (.invalid 0x112345678)

/-- 30_encoding.md section 4 (D7): BE2LE and LE2BE encode and behave as REV32. -/
def Obligations.PseudoOperationsAreRev32 : Prop :=
  ∀ (c : Config) (d : Nat) (s : State),
    encode c (.be2le d) = encode c (.rev32 d) ∧ encode c (.le2be d) = encode c (.rev32 d) ∧
    exec (.be2le d) s = exec (.rev32 d) s ∧ exec (.le2be d) s = exec (.rev32 d) s

/-- 30_encoding.md section 1 (D6): the response word has `out_valid` in bit 32 and `out_data` below it, and stands for
one response. -/
def Obligations.ResponseWordRoundTrips : Prop :=
  (∀ r : Response, Response.ofWord r.word = r ∧ r.word.getLsbD 32 = r.outValid ∧ r.word.extractLsb' 0 32 = r.outData) ∧
  (∀ w : BitVec 33, (Response.ofWord w).word = w)

/-! ### Single steps -/

/-- 10_state.md section 3 (the step, D9): where the environment's next word decodes to a request, the step is the
execution of that request in the run without the word. That the word leaves a list is the model's (log 1). -/
def Obligations.StepRunsTheDecodedRequest : Prop :=
  ∀ (s : State) (w : Nat) (rest : List Nat) (i : Instr),
    s.requests = w :: rest → decode s.cfg w = .ok i → step s = exec i { s with requests := rest }

/-- 30_encoding.md section 3: a word of the opcode table, presented to an instance of any width, is executed as the
request the table's decoder reads from it. That it is presented by widening it with zeros is the model's (log 7). -/
def Obligations.TableWordRunsInEveryInstance : Prop :=
  ∀ (s : State) (nbits w : Nat) (i : Instr),
    decodeTableWord nbits w = some i → step (s.withFetchWord nbits w) = exec i s

/-- 30_encoding.md R52: the field `hi` is ignored. Two valid request words with the same low 32 bits take the run to
the same next state, without a fault or a refusal, and with the same number in the response. -/
def Obligations.HighFieldIsIgnored : Prop :=
  ∀ (s : State) (w₁ w₂ : Nat) (rest : List Nat),
    w₁ < 2 ^ (s.cfg.inW + 1) → w₂ < 2 ^ (s.cfg.inW + 1) →
    w₁.testBit s.cfg.inW = true → w₂.testBit s.cfg.inW = true → w₁ % 2 ^ 32 = w₂ % 2 ^ 32 →
    respondWord s.cfg w₁ = respondWord s.cfg w₂ ∧
    ∃ r : Word32, respondWord s.cfg w₁ = some r ∧
      step { s with requests := w₁ :: rest } =
        .next { s with requests := rest, responses := s.responses ++ [⟨true, r⟩] } ∧
      step { s with requests := w₂ :: rest } =
        .next { s with requests := rest, responses := s.responses ++ [⟨true, r⟩] }

/-- 30_encoding.md R53: no request word is reserved or traps. With `valid = 0` the answer is "no result" and all of
`in_data` is ignored; with `valid = 1` the answer is a number and the `hi` bits are ignored. -/
def Obligations.NoEncodingIsReserved : Prop :=
  ∀ (s : State) (w : Nat) (rest : List Nat), w < 2 ^ (s.cfg.inW + 1) →
    (w.testBit s.cfg.inW = false → respondWord s.cfg w = none ∧ ∃ x n,
      step { s with requests := w :: rest } =
        .next { s with requests := rest, responses := s.responses ++ [⟨false, x⟩], freeDraws := n }) ∧
    (w.testBit s.cfg.inW = true → respondWord s.cfg w = respond true (w % 2 ^ 32) ∧ ∃ r : Word32,
      respondWord s.cfg w = some r ∧
      step { s with requests := w :: rest } =
        .next { s with requests := rest, responses := s.responses ++ [⟨true, r⟩] })

/-- 93_implementation_defined.md U5 and log 5 (the model's choice of a refusal): a step refuses exactly where the next
word is no request word of the instance. -/
def Obligations.OnlyUnrepresentableWordsAreRefused : Prop :=
  ∀ (s : State) (r : Refusal),
    step s = .refused r ↔ r = .notOnPorts ∧ ∃ w rest, s.requests = w :: rest ∧ 2 ^ (s.cfg.inW + 1) ≤ w

/-- The model's choice (log 6): where the environment presents no further request the run has ended
(70_reset_and_hazards.md section 5) and a step changes nothing. -/
def Obligations.FinishedRunStays : Prop :=
  ∀ s : State, s.finished = true → step s = .next s

/-- 40_reverse.md R69, purity. Equal requests get equal responses in any two runs of one instance, whatever came before
(for "no result" the undefined bits are not compared), and a step produces its response and nothing else: the rest of
the requests and every earlier response stand. -/
def Obligations.ResponseDependsOnRequestOnly : Prop :=
  ∀ (s₁ s₂ t₁ t₂ : State) (w : Nat) (rest₁ rest₂ : List Nat),
    s₁.cfg = s₂.cfg → s₁.requests = w :: rest₁ → s₂.requests = w :: rest₂ → step s₁ = .next t₁ → step s₂ = .next t₂ →
    ∃ r₁ r₂, r₁.toOption = r₂.toOption ∧ r₁.outValid = r₂.outValid ∧
      t₁ = { s₁ with requests := rest₁, responses := s₁.responses ++ [r₁], freeDraws := t₁.freeDraws } ∧
      t₂ = { s₂ with requests := rest₂, responses := s₂.responses ++ [r₂], freeDraws := t₂.freeDraws }

/-- 10_state.md section 5: at reset there is nothing the block stores. The values of the model's own fields are its
choices: the table's instance (log 3), no request (log 1), no response (log 2), no free value drawn (log 4). -/
def Obligations.ResetHoldsNothing : Prop :=
  State.reset = ⟨⟨0⟩, [], [], 0⟩ ∧ State.reset.cfg.inW = 32 ∧ State.reset.finished = true

/-! ### Runs -/

/-- 10_state.md section 3 (a run, D9): in every run, the observation so far is the response function applied word by
word to the requests already answered, and the others are still to come. Every step keeps this. -/
def Obligations.StepKeepsTheBooks : Prop :=
  ∀ (all : List Nat) (s t : State), s.accountsFor all → step s = .next t → t.accountsFor all

/-- 10_state.md section 3: the books balance before the first step of any run, the run from reset among them. -/
def Obligations.BooksBalanceAtStart : Prop :=
  State.reset.accountsFor [] ∧ ∀ (c : Config) (ws : List Nat) (k : Nat), (State.mk c ws [] k).accountsFor ws

/-- 30_encoding.md sections 1 and 3 (IN_W is fixed for an instance): every step keeps the width of the port, and the
words still to come stay request words of it. -/
def Obligations.StepKeepsInstanceAndQueue : Prop :=
  ∀ s t : State, s.queueWellFormed = true → step s = .next t → t.queueWellFormed = true ∧ t.cfg = s.cfg

/-- 30_encoding.md sections 1 and 3: at reset every word still to come is a request word (there is none: log 1). -/
def Obligations.ResetQueueWellFormed : Prop :=
  State.reset.queueWellFormed = true

/-- 10_state.md section 3 and 70_reset_and_hazards.md section 5: n steps answer exactly the next n requests, in order,
each as the response function says, and every earlier response stands. -/
def Obligations.RunAnswersRequestsInOrder : Prop :=
  ∀ (n : Nat) (s : State), s.queueWellFormed = true → n ≤ s.requests.length →
    ∃ t, run n s = .next t ∧ s.answeredExactly t (s.requests.take n)

/-- 70_reset_and_hazards.md section 5 (progress and the end of a run): from any run whose words are requests, no number
of steps ends in a fault or a refusal; after as many steps as there are requests the run has ended with as many new
responses, and it stays so (that a step past the end is answered at all is the model's choice, log 6). -/
def Obligations.EveryRunCompletes : Prop :=
  ∀ (n : Nat) (s : State), s.queueWellFormed = true →
    ∃ t, run n s = .next t ∧
      (s.requests.length ≤ n →
        t.finished = true ∧ t.responses.length = s.responses.length + s.requests.length ∧ step t = .next t)

/-- 60_exceptions.md R96. After any number of invalid requests in a row the failed requests are gone, they have given
"no result" each, and each of the requests that follow is answered as if they had never been made: as the response
function says. -/
def Obligations.ErrorsLeaveNoTrace : Prop :=
  ∀ (s : State) (bad ws : List Nat), s.requests = bad ++ ws →
    (∀ w ∈ bad, w < 2 ^ (s.cfg.inW + 1) ∧ w.testBit s.cfg.inW = false) →
    ∃ t, run bad.length s = .next t ∧ t.cfg = s.cfg ∧ t.requests = ws ∧
      t.observed = s.observed ++ List.replicate bad.length none ∧
      ∀ (m : Nat) (u : State), m ≤ ws.length → run m { s with requests := ws } = .next u →
        ∃ u' news, run m t = .next u' ∧ u'.requests = u.requests ∧
          news = (ws.take m).map (respondWord s.cfg) ∧
          u.observed = s.observed ++ news ∧ u'.observed = t.observed ++ news

/-- 20_memory.md R44. In a run, each request gets the response it would get if it were made alone, whatever had been
observed before; so an order of the same requests, or another copy, makes no difference: the pairs of request and
response are the same up to order. Each response belongs to the step of its request; none is deferred. -/
def Obligations.OrderOfRequestsIsImmaterial : Prop :=
  (∀ s : State, s.queueWellFormed = true →
    ∃ t news, run s.requests.length s = .next t ∧ t.observed = s.observed ++ news ∧
      news.length = s.requests.length ∧
      ∀ w x, (w, x) ∈ s.requests.zip news → ∀ (past : List Response) (k : Nat),
        ∃ u, step ⟨s.cfg, [w], past, k⟩ = .next u ∧ u.observed = past.map Response.toOption ++ [x]) ∧
  (∀ s₁ s₂ : State, s₁.cfg = s₂.cfg → s₁.queueWellFormed = true → s₁.requests.Perm s₂.requests →
    ∃ t₁ t₂ news₁ news₂,
      run s₁.requests.length s₁ = .next t₁ ∧ run s₂.requests.length s₂ = .next t₂ ∧
      t₁.observed = s₁.observed ++ news₁ ∧ t₂.observed = s₂.observed ++ news₂ ∧
      (s₁.requests.zip news₁).Perm (s₂.requests.zip news₂))

/-- 60_exceptions.md section 6 (D12): a batch split over two copies of one instance gives, copy after copy, the responses
of one copy that answers it whole. -/
def Obligations.BatchMayBeSplit : Prop :=
  ∀ (c : Config) (a b : List Nat) (j k l : Nat) (tA tB : State),
    run a.length ⟨c, a, [], j⟩ = .next tA → run b.length ⟨c, b, [], k⟩ = .next tB →
    ∃ t, run (a ++ b).length ⟨c, a ++ b, [], l⟩ = .next t ∧ t.observed = tA.observed ++ tB.observed

/-! ### Reference functions -/

/-- 41_formatters.md R83 but for its examples: `displayBytes` writes the bytes of the normalised value in big-endian
order as pairs of digits with single spaces between, 11 characters; of the reversed value it writes the little-endian
bytes (the spec's derivation, section of R86). -/
def Obligations.DisplayBytesSpellsBigEndian : Prop :=
  (∀ n : Int, displayBytes n = [' '].intercalate ((bytesBE (norm32 n)).toList.map hex2) ∧
    (displayBytes n).length = 11) ∧
  (∀ v : Word32, displayBytes (reverse32 v).toNat = [' '].intercalate ((bytesLE v).toList.map hex2))

/-- 41_formatters.md (the section of R82 and R86): `toHex` writes 10 characters, the prefix and the digits of
`displayBytes` without the spaces. -/
def Obligations.ToHexSpellsTheSameDigits : Prop :=
  ∀ n : Int, (toHex n).length = 10 ∧ toHex n = '0' :: 'x' :: (displayBytes n).filter (fun ch => ch != ' ')

/-- 30_encoding.md section 4 (literals, D7) with 41_formatters.md: the literal that `toHex` writes denotes the value. -/
def Obligations.LiteralOfToHexIsTheValue : Prop :=
  ∀ v : Word32, parseLiteral (toHex v.toNat) = some v.toNat

/-- 30_encoding.md section 4 (the listing notation, D7; log 11): `@k` puts the earlier result on the port, zero-extended,
and may not stand for "no result"; a literal must fit the port. -/
def Obligations.ListingOperandsResolve : Prop :=
  ∀ (c : Config) (env : ListingResults),
    (∀ n, n < 2 ^ c.inW → resolveOperand c env (.literal n) = .ok n) ∧
    (∀ n, 2 ^ c.inW ≤ n → resolveOperand c env (.literal n) = .error .literalTooWide) ∧
    (∀ k w, env.lookup k = some (some w) →
      resolveOperand c env (.result k) = .ok w.toNat ∧ w.toNat < 2 ^ c.inW ∧ operand w.toNat = w) ∧
    (∀ k, env.lookup k = some none → resolveOperand c env (.result k) = .error .noResultUsed)

/-- 30_encoding.md section 4 and 70_reset_and_hazards.md section 5 (progress; log 11): a listing can fail for what it
says, never because the block stops. -/
def Obligations.ListingNeverStopsTheBlock : Prop :=
  ∀ (anyData : Nat) (lines : List ListingLine) (env : ListingResults) (s : State),
    runListing anyData lines env s ≠ .error .stopped

/-! ### Infinite runs -/

/-- 10_state.md section 3 (a run may be infinite, D9; log 1): from every state, for every infinite sequence of request
words there is an infinite run that answers it; and whatever the infinite run, what it observes is the response
function applied pointwise. The instance and the requests held for later stay as they are. -/
def Obligations.InfiniteRunIsAnsweredPointwise : Prop :=
  (∀ (s : State) (env : Nat → Nat), (∀ n, env n < 2 ^ (s.cfg.inW + 1)) →
    ∃ states, states 0 = s ∧ infiniteRun env states ∧ observesForever states (fun n => respondWord s.cfg (env n))) ∧
  (∀ (env : Nat → Nat) (states : Nat → State), infiniteRun env states →
    (∀ obs, observesForever states obs ↔ ∀ n, obs n = respondWord (states 0).cfg (env n)) ∧
    ∀ n, (states n).cfg = (states 0).cfg ∧ (states n).requests = (states 0).requests)

/-- 10_state.md section 3 (finite and infinite runs, D9; log 1): the first n invocations of an infinite run are the
finite run over the first n words. That run completes with the same requests left and the same observation, which has
one response for each of the n requests. -/
def Obligations.InfiniteRunBeginsWithFiniteRuns : Prop :=
  ∀ (env : Nat → Nat) (states : Nat → State), infiniteRun env states → ∀ n : Nat,
    ∃ t, run n ((states 0).presentFirst env n) = .next t ∧ t.cfg = (states n).cfg ∧
      t.requests = (states n).requests ∧ t.observed = (states n).observed ∧
      t.observed = (states 0).observed ++ (List.range n).map (fun k => respondWord (states 0).cfg (env k))
end

