-- ==== Sys2Proof/Laws/Decode.lean ====
section
/-! SUPPORT. What decoding can answer, said once. -/

namespace Sys2Proof

@[simp] theorem isRequestWord_iff (c : Config) (w : Nat) :
    c.isRequestWord w = true ↔ w < 2 ^ (c.inW + 1) := decide_eq_true_iff

/-- Well-formedness of a request is a bound on what its ports carry. -/
@[simp] theorem wellFormed_iff (c : Config) (i : Instr) : i.wellFormed c = true ↔ i.inData < 2 ^ c.inW := by
  cases i <;> exact decide_eq_true_iff

@[simp] theorem rev32_inValid (d : Nat) : (Instr.rev32 d).inValid = true := rfl
@[simp] theorem rev32_inData (d : Nat) : (Instr.rev32 d).inData = d := rfl
@[simp] theorem invalid_inValid (d : Nat) : (Instr.invalid d).inValid = false := rfl
@[simp] theorem invalid_inData (d : Nat) : (Instr.invalid d).inData = d := rfl

/-- The mask and the match of the row REV32 test the bit `valid`. -/
theorem validMask_eq_iff (c : Config) (w : Nat) : (w &&& validMask c = rev32Match c) ↔ w.testBit c.inW = true := by
  have h : 0 < 2 ^ c.inW := Nat.two_pow_pos _
  rw [validMask, rev32Match, Nat.and_two_pow]
  cases w.testBit c.inW
  · simp only [Bool.toNat_false, Nat.zero_mul, Bool.false_eq_true, iff_false]; omega
  · simp

/-- Everything the decoder can answer: a request of the row that the bit `valid` selects, with the bits below it as
its data, or a rejection of a number that is no request word. -/
theorem decode_eq (c : Config) (w : Nat) :
    decode c w =
      if c.isRequestWord w then
        .ok (if w.testBit c.inW then .rev32 (dataField c w) else .invalid (dataField c w))
      else .error .wordTooWide := by
  unfold decode Config.isRequestWord
  simp only [validMask_eq_iff, decide_eq_true_eq]
  split
  · split <;> simp_all
  · rfl

/-- What the decoder answers is the request whose ports are the fields of the word. -/
theorem decode_ok (c : Config) (w : Nat) (i : Instr) (h : decode c w = .ok i) :
    c.isRequestWord w = true ∧ i.inValid = w.testBit c.inW ∧ i.inData = w % 2 ^ c.inW := by
  rw [decode_eq] at h
  split at h
  · refine ⟨‹_›, ?_⟩
    cases h
    split <;> simp_all [Instr.inValid, Instr.inData, dataField]
  · cases h

end Sys2Proof
end

