-- ==== Sys2Proof/Laws/Listing.lean ====
section
/-! SUPPORT. What an environment that carries out a listing puts on the ports, said once. -/

namespace Sys2Proof.Machine

/-- A 32-bit result fits the port of every instance. -/
theorem word32_fits_port (c : Config) (w : Word32) : w.toNat < 2 ^ c.inW := by
  have h : 2 ^ 32 ≤ 2 ^ c.inW := Nat.pow_le_pow_right (by decide) (by unfold Config.inW; omega)
  have hw := w.isLt
  omega

/-- Everything an operand can resolve to: a literal that fits the port, an earlier result, or an error that is not the
block's. -/
theorem resolveOperand_cases (c : Config) (env : ListingResults) (x : ListingOperand) :
    (∃ n, n < 2 ^ c.inW ∧ resolveOperand c env x = .ok n) ∨
      ∃ e, e ≠ .stopped ∧ resolveOperand c env x = .error e := by
  cases x with
  | literal n =>
    by_cases h : n < 2 ^ c.inW
    · exact .inl ⟨n, h, by simp [resolveOperand, h]⟩
    · exact .inr ⟨.literalTooWide, by simp, by simp [resolveOperand, h]⟩
  | result k =>
    cases h : env.lookup k with
    | none => exact .inr ⟨.unknownLabel, by simp, by simp [resolveOperand, h]⟩
    | some r =>
      cases r with
      | none => exact .inr ⟨.noResultUsed, by simp, by simp [resolveOperand, h]⟩
      | some w => exact .inl ⟨w.toNat, word32_fits_port c w, by simp [resolveOperand, h]⟩

end Sys2Proof.Machine
end

