-- ==== Sys2Proof/Laws/State.lean ====
section
/-! SUPPORT. One lemma per field per update of the state of a run. -/

namespace Sys2Proof.Machine

@[simp] theorem present_cfg (s : State) (w : Nat) : (s.present w).cfg = s.cfg := rfl
@[simp] theorem present_requests (s : State) (w : Nat) : (s.present w).requests = w :: s.requests := rfl
@[simp] theorem present_responses (s : State) (w : Nat) : (s.present w).responses = s.responses := rfl
@[simp] theorem present_freeDraws (s : State) (w : Nat) : (s.present w).freeDraws = s.freeDraws := rfl

@[simp] theorem emit_cfg (s : State) (r : Response) : (s.emit r).cfg = s.cfg := rfl
@[simp] theorem emit_requests (s : State) (r : Response) : (s.emit r).requests = s.requests := rfl
@[simp] theorem emit_responses (s : State) (r : Response) : (s.emit r).responses = s.responses ++ [r] := rfl
@[simp] theorem emit_freeDraws (s : State) (r : Response) : (s.emit r).freeDraws = s.freeDraws := rfl

@[simp] theorem emitNoResult_cfg (s : State) : s.emitNoResult.cfg = s.cfg := rfl
@[simp] theorem emitNoResult_requests (s : State) : s.emitNoResult.requests = s.requests := rfl
@[simp] theorem emitNoResult_responses (s : State) :
    s.emitNoResult.responses = s.responses ++ [.noResult (Config.freeOutData s.freeDraws)] := rfl
@[simp] theorem emitNoResult_freeDraws (s : State) : s.emitNoResult.freeDraws = s.freeDraws + 1 := rfl

@[simp] theorem reset_cfg : State.reset.cfg = Config.tableInstance := rfl
@[simp] theorem reset_requests : State.reset.requests = [] := rfl
@[simp] theorem reset_responses : State.reset.responses = [] := rfl
@[simp] theorem reset_freeDraws : State.reset.freeDraws = 0 := rfl

/-- Everything the next request can be: none, or the head of the list with the rest left. -/
theorem nextRequest_cases (s : State) :
    (s.requests = [] ∧ s.nextRequest = none) ∨
      ∃ w rest, s.requests = w :: rest ∧ s.nextRequest = some (w, { s with requests := rest }) := by
  unfold State.nextRequest
  split
  · exact .inl ⟨‹_›, rfl⟩
  · exact .inr ⟨_, _, ‹_›, rfl⟩

end Sys2Proof.Machine
end

