-- ==== Sys2Proof/Laws/Ops.lean ====
section
/-! SUPPORT. What the operations on values can do, said once: readings of a response, normalisation, lanes, the byte
reversal. -/

namespace Sys2Proof.Machine

@[simp] theorem number_outValid (w : Word32) : (Response.number w).outValid = true := rfl
@[simp] theorem number_outData (w : Word32) : (Response.number w).outData = w := rfl
@[simp] theorem number_toOption (w : Word32) : (Response.number w).toOption = some w := rfl
@[simp] theorem number_condition (w : Word32) : (Response.number w).condition = none := rfl
@[simp] theorem noResult_outValid (x : Word32) : (Response.noResult x).outValid = false := rfl
@[simp] theorem noResult_outData (x : Word32) : (Response.noResult x).outData = x := rfl
@[simp] theorem noResult_toOption (x : Word32) : (Response.noResult x).toOption = none := rfl
@[simp] theorem noResult_condition (x : Word32) : (Response.noResult x).condition = some .noResult := rfl

@[simp] theorem respond_true (d : Nat) : respond true d = some (reverse32 (operand d)) := rfl
@[simp] theorem respond_false (d : Nat) : respond false d = none := rfl

@[simp] theorem portResponse_true (d : Nat) (x : Word32) :
    portResponse true d x = .number (reverse32 (operand d)) := rfl
@[simp] theorem portResponse_false (d : Nat) (x : Word32) : portResponse false d x = .noResult x := rfl

/-- Normalisation of a natural number keeps the low 32 bits. -/
theorem norm32_natCast (n : Nat) : norm32 (n : Int) = BitVec.ofNat 32 n := by
  apply BitVec.eq_of_toNat_eq
  have h : ((n : Int) % 2 ^ 32).toNat = n % 2 ^ 32 := by omega
  simp only [norm32, h, BitVec.toNat_ofNat, Nat.mod_mod]

@[simp] theorem operand_toNat (n : Nat) : (operand n).toNat = n % 2 ^ 32 := by
  simp [operand, norm32_natCast]

/-- The operand that a 32-bit result makes when it is presented again is that result. -/
@[simp] theorem operand_word (w : Word32) : operand w.toNat = w := by
  simp [operand, norm32_natCast]

/-- A bit of a lane. -/
theorem lane_getLsbD (v : Word32) (i : Fin 4) (k : Nat) (hk : k < 8) :
    (lane v i).getLsbD k = v.getLsbD (8 * i.val + k) := by
  simp [lane, hk]

/-- A bit of four concatenated bytes. -/
theorem append4_getLsbD (a b c d : Byte) (i : Nat) :
    (a ++ b ++ c ++ d : Word32).getLsbD i =
      if i < 8 then d.getLsbD i else if i < 16 then c.getLsbD (i - 8)
      else if i < 24 then b.getLsbD (i - 16) else a.getLsbD (i - 24) := by
  have e1 : i - 8 - 8 = i - 16 := by omega
  have e2 : i - 16 - 8 = i - 24 := by omega
  have h1 : (i - 8 < 8) = (i < 8 ∨ i < 16) := by apply propext; omega
  have h2 : (i - 16 < 8) = (i < 16 ∨ i < 24) := by apply propext; omega
  simp only [BitVec.getLsbD_append, e1, e2, h1, h2]
  by_cases c1 : i < 8
  · simp [c1]
  · by_cases c2 : i < 16
    · simp [c1, c2]
    · by_cases c3 : i < 24 <;> simp [c1, c2, c3]

/-- The lanes of four concatenated bytes. -/
theorem lane_append4 (a b c d : Byte) (i : Fin 4) : lane (a ++ b ++ c ++ d) i = #v[d, c, b, a][i] := by
  apply BitVec.eq_of_getLsbD_eq
  intro k hk
  rw [lane_getLsbD _ _ _ hk, append4_getLsbD]
  fin_cases i <;> simp <;> repeat (first | omega | rfl | rw [if_neg (by omega)] | rw [if_pos (by omega)])

/-- What the byte reversal does, lane by lane. -/
@[simp] theorem lane_reverse32 (v : Word32) (i : Fin 4) : lane (reverse32 v) i = lane v i.rev := by
  apply BitVec.eq_of_getLsbD_eq
  intro k hk
  rw [lane_getLsbD _ _ _ hk, reverse32, append4_getLsbD]
  fin_cases i <;> simp <;> repeat (first | omega | rfl | rw [if_neg (by omega)] | rw [if_pos (by omega)])

/-- A value is its four lanes. -/
theorem eq_of_lanes (v w : Word32) (h : ∀ i : Fin 4, lane v i = lane w i) : v = w := by
  apply BitVec.eq_of_getLsbD_eq
  intro k hk
  have h' := congrArg (fun b : Byte => b.getLsbD (k % 8)) (h ⟨k / 8, by omega⟩)
  simp only [lane_getLsbD _ _ _ (Nat.mod_lt k (by decide : 8 > 0)), Nat.div_add_mod] at h'
  exact h'

end Sys2Proof.Machine
end

