-- ==== Sys2Proof/Laws/PerInstr.lean ====
section
/-! SUPPORT. One fact per request kind about its encoding: the word of a well-formed request is a request word, so the
ports of the instance carry it (30_encoding.md R47). -/

namespace Sys2Proof.Laws.EncodingFits

/-- The word of the request has no bit above bit IN_W, in every instance it is well formed for. -/
def Statement (i : Instr) : Prop := ∀ c : Config, i.wellFormed c = true → c.isRequestWord (encode c i) = true

theorem rev32 (inData : Nat) : Statement (.rev32 inData) := by
  intro c h
  rw [wellFormed_iff, rev32_inData] at h
  rw [isRequestWord_iff, encode, rev32Match, Nat.pow_succ]
  omega

theorem invalid (inData : Nat) : Statement (.invalid inData) := by
  intro c h
  rw [wellFormed_iff, invalid_inData] at h
  rw [isRequestWord_iff, encode, invalidMatch, Nat.pow_succ]
  omega

end Sys2Proof.Laws.EncodingFits
end

