-- ==== Sys2Proof/Laws/Step.lean ====
section
/-! SUPPORT. What executing and stepping can do, said once. -/

namespace Sys2Proof.Machine

@[simp] theorem exec_rev32 (d : Nat) (s : State) :
    exec (.rev32 d) s = .next (s.emit (.number (reverse32 (operand d)))) := rfl
@[simp] theorem exec_invalid (d : Nat) (s : State) : exec (.invalid d) s = .next s.emitNoResult := rfl

/-- Everything a request can do to a run: one response is added, whose functional view is `respond` of its ports, and
the count of free values may grow. -/
theorem exec_cases (i : Instr) (s : State) :
    ∃ r n, r.toOption = respond i.inValid i.inData ∧
      exec i s = .next { s with responses := s.responses ++ [r], freeDraws := n } := by
  cases i with
  | rev32 d => exact ⟨.number (reverse32 (operand d)), s.freeDraws, rfl, rfl⟩
  | invalid d => exact ⟨.noResult (Config.freeOutData s.freeDraws), s.freeDraws + 1, rfl, rfl⟩

/-- Everything a step can do: nothing without a request; a refusal of a number that is no request word; or one
invocation, which takes the word from the list and adds its response. -/
theorem step_cases (s : State) :
    (s.requests = [] ∧ step s = .next s) ∨
      (∃ w rest, s.requests = w :: rest ∧ s.cfg.isRequestWord w = false ∧ step s = .refused .notOnPorts) ∨
      (∃ w rest r n, s.requests = w :: rest ∧ s.cfg.isRequestWord w = true ∧
        r.toOption = respondWord s.cfg w ∧
        step s = .next { s with requests := rest, responses := s.responses ++ [r], freeDraws := n }) := by
  obtain ⟨hq, hn⟩ | ⟨w, rest, hq, hn⟩ := nextRequest_cases s
  · exact .inl ⟨hq, by simp [step, hn]⟩
  · refine .inr ?_
    by_cases hw : s.cfg.isRequestWord w = true
    · have hd := decode_eq s.cfg w
      rw [if_pos hw] at hd
      obtain ⟨-, hv, hdata⟩ := decode_ok _ _ _ hd
      obtain ⟨r, n, hr, he⟩ := exec_cases _ { s with requests := rest }
      refine .inr ⟨w, rest, r, n, hq, hw, ?_, ?_⟩
      · rw [hv, hdata] at hr
        exact hr
      · simp only [step, hn, hd]
        exact he
    · refine .inl ⟨w, rest, hq, (Bool.not_eq_true _).mp hw, ?_⟩
      have hd := decode_eq s.cfg w
      rw [if_neg hw] at hd
      simp [step, hn, hd]

/-- A run of any machine behind the host's interface goes on from its first step. -/
theorem hostRun_next (M : Host.Core) (n : Nat) (s t : M.State) (h : M.step s = .next t) :
    M.run (n + 1) s = M.run n t := by
  simp [Host.Core.run, h]

/-- A run of any machine behind the host's interface ends at a refusal. -/
theorem hostRun_refused (M : Host.Core) (n : Nat) (s : M.State) (r : M.Refusal) (h : M.step s = .refused r) :
    M.run (n + 1) s = .refused r := by
  simp [Host.Core.run, h]

/-- The host's runs are the model's. -/
theorem core_run_eq (n : Nat) (s : State) : Sys2Proof.core.run n s = run n s := by
  induction n generalizing s with
  | zero => rfl
  | succ n ih =>
    rw [run]
    cases h : step s with
    | next t => exact (hostRun_next Sys2Proof.core n s t h).trans (ih t)
    | fault r => exact r.rec
    | refused r => exact hostRun_refused Sys2Proof.core n s r h

@[simp] theorem run_zero (s : State) : run 0 s = .next s := rfl

/-- A run goes on from where its first step leaves it. -/
theorem run_succ_of_next (n : Nat) (s t : State) (h : step s = .next t) : run (n + 1) s = run n t := by
  simp [run, h]

end Sys2Proof.Machine
end

