-- ==== Sys2Proof/Laws/Runs.lean ====
section
/-! SUPPORT. What an invocation can do, and the fields of a run with a first part of an infinite sequence presented. -/

namespace Sys2Proof.Machine

@[simp] theorem presentFirst_cfg (s : State) (env : Nat → Nat) (n : Nat) : (s.presentFirst env n).cfg = s.cfg := rfl
@[simp] theorem presentFirst_requests (s : State) (env : Nat → Nat) (n : Nat) :
    (s.presentFirst env n).requests = (List.range n).map env ++ s.requests := rfl
@[simp] theorem presentFirst_responses (s : State) (env : Nat → Nat) (n : Nat) :
    (s.presentFirst env n).responses = s.responses := rfl
@[simp] theorem presentFirst_freeDraws (s : State) (env : Nat → Nat) (n : Nat) :
    (s.presentFirst env n).freeDraws = s.freeDraws := rfl
@[simp] theorem presentFirst_observed (s : State) (env : Nat → Nat) (n : Nat) :
    (s.presentFirst env n).observed = s.observed := rfl

/-- Everything an invocation can do: a number that is no request word is refused; a request word gets one response,
whose functional view is `respondWord` of it, and the requests still to come stay as they are. -/
theorem invoke_cases (s : State) (w : Nat) :
    (s.cfg.isRequestWord w = false ∧ invoke s w = .refused .notOnPorts) ∨
      (s.cfg.isRequestWord w = true ∧ ∃ r n, r.toOption = respondWord s.cfg w ∧
        invoke s w = .next { s with responses := s.responses ++ [r], freeDraws := n }) := by
  obtain ⟨hq, -⟩ | ⟨w', rest, hq, hw, hs⟩ | ⟨w', rest, r, n, hq, hw, hr, hs⟩ := step_cases (s.present w)
  · cases hq
  · cases hq
    exact .inl ⟨hw, hs⟩
  · cases hq
    exact .inr ⟨hw, r, n, hr, hs⟩

end Sys2Proof.Machine
end

