-- ==== Sys2Proof/Tests/Slice0.lean ====
section
/-! SUPPORT. The model's own tests: expected values from spec/95_test_vectors.md and 30_encoding.md R60. Then, for
every statement with hypotheses, a witness: a concrete state and operands that meet all of them together. -/

namespace Sys2Proof.Tests

open Sys2Proof Sys2Proof.Machine

/-- A run that has observed nothing, of the instance with a field `hi` of the given width. -/
def fresh (hiWidth : Nat) (ws : List Nat) : State := ⟨⟨hiWidth⟩, ws, [], 0⟩

/-! ### Well-formedness: an ill-formed term for each check -/

theorem test_rev32_too_wide : (Instr.rev32 0x100000000).wellFormed ⟨0⟩ = false := by decide
theorem test_invalid_too_wide : (Instr.invalid 0x200000000).wellFormed ⟨1⟩ = false := by decide
theorem test_word_too_wide : Config.isRequestWord ⟨0⟩ 0x200000000 = false := by decide
theorem test_rev32_widest : (Instr.rev32 0xFFFFFFFF).wellFormed ⟨0⟩ = true := by decide

/-! ### Decoding words written out bit by bit (R51, T12) -/

theorem test_decode_rev32 :
    decode ⟨0⟩ 0b1_00010010_00110100_01010110_01111000 = .ok (.rev32 0x12345678) := by decide
theorem test_decode_invalid :
    decode ⟨0⟩ 0b0_00010010_00110100_01010110_01111000 = .ok (.invalid 0x12345678) := by decide
theorem test_decode_rev32_hi :
    decode ⟨1⟩ 0b1_1_00010010_00110100_01010110_01111000 = .ok (.rev32 0x112345678) := by decide
theorem test_decode_same_digits_other_instance :
    decode ⟨1⟩ 0b0_1_00010010_00110100_01010110_01111000 = .ok (.invalid 0x112345678) := by decide
theorem test_decode_rejects : decode ⟨0⟩ 0b10_00000000_00000000_00000000_00000000 = .error .wordTooWide := by decide
theorem test_encode_rev32 : encode ⟨32⟩ (.rev32 0xFFFFFFFF00000001) = 0x1FFFFFFFF00000001 := by decide
theorem test_table_word_rev32 : decodeTableWord 40 0x112345678 = some (.rev32 0x12345678) := by decide
theorem test_table_word_invalid : decodeTableWord 40 0x012345678 = some (.invalid 0x12345678) := by decide

/-! ### Values (T1, T5, T8, T13) -/

/-- T1; the first and second vectors reject every wrong model of T8. -/
theorem test_reverse32_known_vectors :
    reverse32 0x12345678#32 = 0x78563412#32 ∧ reverse32 0xDEADBEEF#32 = 0xEFBEADDE#32 ∧
      reverse32 0x00FF00FF#32 = 0xFF00FF00#32 ∧ reverse32 255#32 = 0xFF000000#32 := by decide
/-- The rejected reading of the cut formula gives 0x78005600 (90_conflicts.md C1). -/
theorem test_masks_not_naive : reverseByMasks 0x12345678#32 = 0x78563412#32 := by decide
theorem test_buffer : reverseByBufferBE 0xCAFEBABE#32 = 0xBEBAFECA#32 := by decide
theorem test_toHex : toHex 0xABC = ['0', 'x', '0', '0', '0', '0', '0', 'A', 'B', 'C'] := by decide
theorem test_displayBytes :
    displayBytes 0x112345678 = ['1', '2', ' ', '3', '4', ' ', '5', '6', ' ', '7', '8'] := by decide
theorem test_literal_separator : parseLiteral ['0', 'x', '1', '_', '0', 'a'] = some 0x10A := by decide
theorem test_literal_decimal : parseLiteral ['2', '5', '5'] = some 255 := by decide
theorem test_literal_prefix_alone : parseLiteral ['0', 'x'] = none := by decide

theorem test_listing_uses_result :
    lineInstr ⟨1⟩ [(1, some 0x78563412#32)] 0 (.rev32 (.result 1)) = .ok (.rev32 0x78563412) := by decide

/-! ### One step per instruction (T6, T7) -/

theorem test_step_rev32 :
    step (fresh 8 [0x10112345678, 5]) = .next ⟨⟨8⟩, [5], [⟨true, 0x78563412#32⟩], 0⟩ := by rfl
theorem test_step_rev32_after_reset :
    step (State.reset.withFetchWord 40 0x1000000FF) = .next { State.reset with responses := [⟨true, 0xFF000000#32⟩] } := by
  rfl
theorem test_step_invalid :
    ∃ x, step (fresh 0 [0x012345678]) = .next ⟨⟨0⟩, [], [⟨false, x⟩], 1⟩ := ⟨_, rfl⟩
theorem test_step_invalid_after_reset :
    ∃ t, step (State.reset.withFetchWord 40 0x0FFFFFFFF) = .next t ∧ t.observed = [none] := ⟨_, rfl, rfl⟩
theorem test_step_refuses_wide_word : step (fresh 0 [0x200000000]) = .refused .notOnPorts := by rfl

/-! ### Witnesses for the hypotheses of the statements -/

theorem witness_ReverseTwiceIsIdentity : respond true 0x12345678 = some 0x78563412#32 := by decide
theorem witness_NormalisationLaw : (2 ^ 32 + 255 : Int) % 2 ^ 32 = 255 % 2 ^ 32 := by decide
theorem witness_NormalisationIsFlooredModulo : (((0xFFFFFFFE#32).toNat : Int)) % 2 ^ 32 = (-2) % 2 ^ 32 := by decide
theorem witness_BitMapOfReversal : 31 < 32 ∧ sourceBit 31 = 7 ∧ 0 < 32 ∧ sourceBit 0 = 24 := by decide
theorem witness_FixedPointsArePalindromes : reverse32 0x12344321#32 ≠ 0x12344321#32 := by decide
theorem witness_Rev32AnswersReversedLanes_word :
    0x1FFFFFFFF < 2 ^ (Config.inW ⟨0⟩ + 1) ∧ Nat.testBit 0x1FFFFFFFF (Config.inW ⟨0⟩) = true := by decide
theorem witness_Rev32AnswersReversedLanes_congruent : 0x112345678 % 2 ^ 32 = 0x12345678 % 2 ^ 32 := by decide
theorem witness_InvalidAnswersNoResult_word :
    0x0FFFFFFFF < 2 ^ (Config.inW ⟨0⟩ + 1) ∧ Nat.testBit 0x0FFFFFFFF (Config.inW ⟨0⟩) = false := by decide
theorem witness_InvalidAnswersNoResult_next : ∃ t, exec (.invalid 0x12345678) State.reset = .next t := ⟨_, rfl⟩
theorem witness_ConditionRaisedByInvalidOnly :
    (∃ t, exec (.invalid 0) State.reset = .next t) ∧ ∃ t, exec (.rev32 0) State.reset = .next t :=
  ⟨⟨_, rfl⟩, ⟨_, rfl⟩⟩
theorem witness_DecodeOfEncodeIsIdentity :
    (Instr.rev32 0x1FFFFFFFF).wellFormed ⟨1⟩ = true ∧ (Instr.invalid 0).wellFormed ⟨0⟩ = true := by decide
theorem witness_EncodeOfDecodeIsIdentity : decode ⟨0⟩ 0x1DEADBEEF = .ok (.rev32 0xDEADBEEF) := by decide
theorem witness_EveryRequestWordMatchesOneRow :
    0x1FFFFFFFF < 2 ^ (Config.inW ⟨0⟩ + 1) ∧ 0 < 2 ^ (Config.inW ⟨0⟩ + 1) := by decide
theorem witness_StepRunsTheDecodedRequest :
    (fresh 0 [0x1000000FF]).requests = 0x1000000FF :: [] ∧ decode (fresh 0 [0x1000000FF]).cfg 0x1000000FF = .ok (.rev32 255) := by
  decide
theorem witness_TableWordRunsInEveryInstance : decodeTableWord 40 0x1000000FF = some (.rev32 255) := by decide
theorem witness_HighFieldIsIgnored :
    0x312345678 < 2 ^ ((fresh 1 []).cfg.inW + 1) ∧ 0x212345678 < 2 ^ ((fresh 1 []).cfg.inW + 1) ∧
      Nat.testBit 0x312345678 (fresh 1 []).cfg.inW = true ∧ Nat.testBit 0x212345678 (fresh 1 []).cfg.inW = true ∧
      0x312345678 % 2 ^ 32 = 0x212345678 % 2 ^ 32 := by decide
theorem witness_NoEncodingIsReserved_invalid :
    0x0FFFFFFFF < 2 ^ ((fresh 0 []).cfg.inW + 1) ∧ Nat.testBit 0x0FFFFFFFF (fresh 0 []).cfg.inW = false := by decide
theorem witness_NoEncodingIsReserved_valid :
    0x100000000 < 2 ^ ((fresh 0 []).cfg.inW + 1) ∧ Nat.testBit 0x100000000 (fresh 0 []).cfg.inW = true := by decide
theorem witness_OnlyUnrepresentableWordsAreRefused :
    step (fresh 0 [0x200000000]) = .refused .notOnPorts ∧ 2 ^ ((fresh 0 []).cfg.inW + 1) ≤ 0x200000000 ∧
      ∃ t, step (fresh 0 [0x1FFFFFFFF]) = .next t := ⟨rfl, by decide, _, rfl⟩
theorem witness_FinishedRunStays : State.reset.finished = true := by decide
theorem witness_ResponseDependsOnRequestOnly :
    ∃ t₁ t₂, (fresh 0 [0x1000000FF]).cfg = (State.mk ⟨0⟩ [0x1000000FF, 1] [⟨false, 7⟩] 9).cfg ∧
      step (fresh 0 [0x1000000FF]) = .next t₁ ∧ step ⟨⟨0⟩, [0x1000000FF, 1], [⟨false, 7⟩], 9⟩ = .next t₂ :=
  ⟨_, _, rfl, rfl, rfl⟩
theorem witness_StepKeepsTheBooks :
    State.accountsFor ⟨⟨0⟩, [0x012345678], [⟨true, 0xFF000000#32⟩], 0⟩ [0x1000000FF, 0x012345678] ∧
      ∃ t, step ⟨⟨0⟩, [0x012345678], [⟨true, 0xFF000000#32⟩], 0⟩ = .next t :=
  ⟨⟨[0x1000000FF], rfl, by decide⟩, _, rfl⟩
theorem witness_StepKeepsInstanceAndQueue :
    (fresh 1 [0x312345678, 0x112345678]).queueWellFormed = true ∧ ∃ t, step (fresh 1 [0x312345678, 0x112345678]) = .next t :=
  ⟨by decide, _, rfl⟩
theorem witness_RunAnswersRequestsInOrder :
    (fresh 0 [0x1000000FF, 0]).queueWellFormed = true ∧ 2 ≤ (fresh 0 [0x1000000FF, 0]).requests.length := by decide
theorem witness_EveryRunCompletes :
    (fresh 0 [0x1000000FF]).queueWellFormed = true ∧ (fresh 0 [0x1000000FF]).requests.length ≤ 1 := by decide
theorem witness_ErrorsLeaveNoTrace :
    (fresh 0 [0, 0x0FFFFFFFF, 0x1000000FF]).requests = [0, 0x0FFFFFFFF] ++ [0x1000000FF] ∧
      (∀ w ∈ [0, 0x0FFFFFFFF],
        w < 2 ^ ((fresh 0 []).cfg.inW + 1) ∧ w.testBit (fresh 0 []).cfg.inW = false) ∧
      1 ≤ [0x1000000FF].length ∧ ∃ u, run 1 (fresh 0 [0x1000000FF]) = .next u := ⟨by decide, by decide, by decide, _, rfl⟩
theorem witness_OrderOfRequestsIsImmaterial :
    (fresh 0 [0x1000000FF, 0]).queueWellFormed = true ∧ (fresh 0 [0x1000000FF, 0]).requests.Perm [0, 0x1000000FF] := by
  decide
theorem witness_BatchMayBeSplit :
    ∃ tA tB, run 1 (fresh 0 [0x1000000FF]) = .next tA ∧ run 1 (fresh 0 [0x012345678]) = .next tB := ⟨_, _, rfl, rfl⟩
/-- The run in which the environment presents REV32 255 for ever. -/
def forever (n : Nat) : State := ⟨⟨0⟩, [], List.replicate n (.number 0xFF000000#32), 0⟩

theorem invoke_rev32_255 (past : List Response) :
    invoke ⟨⟨0⟩, [], past, 0⟩ 0x1000000FF = .next ⟨⟨0⟩, [], past ++ [.number 0xFF000000#32], 0⟩ := by
  have hd : decode ⟨0⟩ 0x1000000FF = .ok (.rev32 255) := by decide
  have hr : reverse32 (operand 255) = 0xFF000000#32 := by decide
  simp [invoke, step, State.nextRequest, State.present, State.emit, hd, hr]

theorem witness_InfiniteRunIsAnsweredPointwise :
    (∀ _n : Nat, 0x1000000FF < 2 ^ ((forever 0).cfg.inW + 1)) ∧ infiniteRun (fun _ => 0x1000000FF) forever := by
  have h : 0x1000000FF < 2 ^ ((forever 0).cfg.inW + 1) := by decide
  refine ⟨fun _ => h, fun n => ?_⟩
  refine (invoke_rev32_255 _).trans ?_
  rw [forever, List.replicate_succ']
theorem witness_InfiniteRunBeginsWithFiniteRuns : infiniteRun (fun _ => 0x1000000FF) forever :=
  witness_InfiniteRunIsAnsweredPointwise.2
theorem witness_ListingOperandsResolve :
    0xFFFFFFFF < 2 ^ Config.inW ⟨0⟩ ∧ 2 ^ Config.inW ⟨0⟩ ≤ 0x100000000 ∧
      List.lookup 1 [(1, some 0x78563412#32), (2, none)] = some (some 0x78563412#32) ∧
      List.lookup 2 [(1, some 0x78563412#32), (2, none)] = some none := by decide

end Sys2Proof.Tests
end

