-- ==== Sys2Proof/Proofs/RunAnswers.lean ====
section
/-! SUPPORT. Runs over request words: what one step answers, composed along the list of requests, and the statement that
order and copies make no difference (20_memory.md R44). -/

namespace Sys2Proof.Machine

theorem queueWellFormed_iff (s : State) :
    s.queueWellFormed = true ↔ ∀ w ∈ s.requests, s.cfg.isRequestWord w = true := List.all_eq_true

/-! ### What a run answers -/

theorem answeredExactly_refl (s : State) : s.answeredExactly s [] := by
  simp [State.answeredExactly]

/-- Two parts of a run, one after the other, answer the words of both. -/
theorem answeredExactly_trans {s t u : State} {ws vs : List Nat}
    (hst : s.answeredExactly t ws) (htu : t.answeredExactly u vs) : s.answeredExactly u (ws ++ vs) := by
  obtain ⟨hcfg, hreq, hresp, hobs⟩ := hst
  obtain ⟨hcfg', hreq', hresp', hobs'⟩ := htu
  refine ⟨hcfg'.trans hcfg, ?_, hresp.trans hresp', ?_⟩
  · rw [hreq, hreq', List.append_assoc]
  · rw [hobs', hobs, hcfg, List.map_append, List.append_assoc]

/-- A step with a request word next answers it and nothing else. -/
theorem step_answersExactly (s : State) (w : Nat) (rest : List Nat) (hq : s.requests = w :: rest)
    (hw : s.cfg.isRequestWord w = true) : ∃ t, step s = .next t ∧ s.answeredExactly t [w] := by
  obtain ⟨hnil, -⟩ | ⟨w', rest', hq', hw', -⟩ | ⟨w', rest', r, n, hq', -, hr, hs⟩ := step_cases s
  · simp [hnil] at hq
  · obtain ⟨rfl, rfl⟩ := List.cons.inj (hq.symm.trans hq')
    simp [hw] at hw'
  · obtain ⟨rfl, rfl⟩ := List.cons.inj (hq.symm.trans hq')
    exact ⟨_, hs, rfl, hq, List.prefix_append _ _, by simp [State.observed, hr]⟩

/-- A run answers a first part of its requests that are request words, one word per step. -/
theorem run_answersExactly (ws rest : List Nat) (s : State) (hq : s.requests = ws ++ rest)
    (hw : ∀ w ∈ ws, s.cfg.isRequestWord w = true) :
    ∃ t, run ws.length s = .next t ∧ s.answeredExactly t ws := by
  induction ws generalizing s with
  | nil => exact ⟨s, run_zero s, answeredExactly_refl s⟩
  | cons w ws ih =>
    obtain ⟨hw₀, hws⟩ := List.forall_mem_cons.mp hw
    obtain ⟨t, hstep, hst⟩ := step_answersExactly s w (ws ++ rest) hq hw₀
    have ⟨hcfg, hreq, _⟩ := hst
    have hqt : t.requests = ws ++ rest := (List.cons.inj (hreq.symm.trans hq)).2
    obtain ⟨u, hrun, htu⟩ := ih t hqt (by rwa [hcfg])
    exact ⟨u, (run_succ_of_next ws.length s t hstep).trans hrun, answeredExactly_trans hst htu⟩

/-- A run over request words adds `respondWord` of each of them to the observation. -/
theorem run_all_observed (s : State) (hs : s.queueWellFormed = true) :
    ∃ t, run s.requests.length s = .next t ∧ t.observed = s.observed ++ s.requests.map (respondWord s.cfg) := by
  obtain ⟨t, hrun, -, -, -, hobs⟩ :=
    run_answersExactly s.requests [] s (List.append_nil _).symm ((queueWellFormed_iff s).mp hs)
  exact ⟨t, hrun, hobs⟩

/-! ### Order and copies (R44) -/

theorem queueWellFormed_of_perm {s₁ s₂ : State} (hcfg : s₁.cfg = s₂.cfg) (hp : s₁.requests.Perm s₂.requests)
    (hs : s₁.queueWellFormed = true) : s₂.queueWellFormed = true := by
  rw [queueWellFormed_iff] at hs ⊢
  intro w hw
  exact hcfg ▸ hs w (hp.mem_iff.mpr hw)

/-- A word of the instance made alone, after any past, is answered by `respondWord` of it. -/
theorem step_alone_observed (c : Config) (w : Nat) (hw : c.isRequestWord w = true) (past : List Response) (k : Nat) :
    ∃ u, step ⟨c, [w], past, k⟩ = .next u ∧ u.observed = past.map Response.toOption ++ [respondWord c w] := by
  obtain ⟨u, hstep, -, -, -, hobs⟩ := step_answersExactly ⟨c, [w], past, k⟩ w [] rfl hw
  exact ⟨u, hstep, hobs⟩

/-- Settles O43: both halves read off that a run answers every word by `respondWord`, a function of the instance and
the word alone. -/
theorem orderOfRequestsIsImmaterial : Obligations.OrderOfRequestsIsImmaterial := by
  unfold Obligations.OrderOfRequestsIsImmaterial
  constructor
  · intro s hs
    obtain ⟨t, hrun, hobs⟩ := run_all_observed s hs
    refine ⟨t, _, hrun, hobs, List.length_map _, fun w x hwx past k => ?_⟩
    rw [← List.map_prod_left_eq_zip] at hwx
    obtain ⟨v, hv, hvx⟩ := List.mem_map.mp hwx
    obtain ⟨rfl, rfl⟩ := Prod.mk.inj hvx
    exact step_alone_observed s.cfg v ((queueWellFormed_iff s).mp hs v hv) past k
  · intro s₁ s₂ hcfg hs hp
    obtain ⟨t₁, hrun₁, hobs₁⟩ := run_all_observed s₁ hs
    obtain ⟨t₂, hrun₂, hobs₂⟩ := run_all_observed s₂ (queueWellFormed_of_perm hcfg hp hs)
    refine ⟨t₁, t₂, _, _, hrun₁, hrun₂, hobs₁, hobs₂, ?_⟩
    rw [← hcfg, ← List.map_prod_left_eq_zip, ← List.map_prod_left_eq_zip]
    exact hp.map _

end Sys2Proof.Machine
end

