-- ==== Sys2Proof/Proofs/RequestWords.lean ====
section
/-! SUPPORT. What a request word means: its operand is its low 32 bits (30_encoding.md R50), and a step answers it by
the bit `valid` and that operand alone (R52, R53). -/

namespace Sys2Proof.Machine

/-! ### The operand of a word (R50) -/

/-- The operand depends on the low 32 bits alone. -/
theorem operand_eq_of_mod_eq {a b : Nat} (h : a % 2 ^ 32 = b % 2 ^ 32) : operand a = operand b :=
  BitVec.eq_of_toNat_eq (by rw [operand_toNat, operand_toNat, h])

/-- The port `in_data` holds at least the low 32 bits of a word, as IN_W is 32 or more (R47). -/
theorem dataField_mod_word (c : Config) (w : Nat) : dataField c w % 2 ^ 32 = w % 2 ^ 32 :=
  Nat.mod_mod_of_dvd w (pow_dvd_pow 2 (Nat.le_add_right 32 c.hiWidth))

theorem operand_dataField (c : Config) (w : Nat) : operand (dataField c w) = operand w :=
  operand_eq_of_mod_eq (dataField_mod_word c w)

theorem operand_mod_word (w : Nat) : operand (w % 2 ^ 32) = operand w :=
  operand_eq_of_mod_eq (Nat.mod_mod w _)

/-- The operand of a bit vector of any width is its bits 31 to 0. -/
theorem operand_bitVec {n : Nat} (d : BitVec n) : operand d.toNat = d.extractLsb' 0 32 :=
  BitVec.eq_of_toNat_eq (by rw [operand_toNat, BitVec.extractLsb'_toNat, Nat.shiftRight_zero])

/-- Settles O3: the port is at least as wide as the operand, so cutting a word to `in_data` first loses none of its
low 32 bits. -/
theorem operandIsLowWord : Obligations.OperandIsLowWord := by
  unfold Obligations.OperandIsLowWord
  refine ⟨fun c d => operand_bitVec d, fun c w => ?_, fun d => ⟨rfl, operand_toNat d⟩⟩
  rw [operand_dataField, operand_bitVec]

/-! ### What a request word is answered with (R52, R53) -/

/-- A valid word is answered by its operand's reversal. -/
theorem respondWord_valid (c : Config) (w : Nat) (hv : w.testBit c.inW = true) :
    respondWord c w = some (reverse32 (operand w)) := by
  rw [respondWord, hv, respond_true, ← dataField, operand_dataField]

theorem respondWord_invalid (c : Config) (w : Nat) (hv : w.testBit c.inW = false) : respondWord c w = none := by
  rw [respondWord, hv, respond_false]

/-- A step with a request word next executes the request of the row that the bit `valid` selects. -/
theorem step_requestWord (s : State) (w : Nat) (rest : List Nat) (hw : w < 2 ^ (s.cfg.inW + 1)) :
    step { s with requests := w :: rest } =
      exec (if w.testBit s.cfg.inW then .rev32 (dataField s.cfg w) else .invalid (dataField s.cfg w))
        { s with requests := rest } := by
  have hd := decode_eq s.cfg w
  rw [if_pos ((isRequestWord_iff s.cfg w).mpr hw)] at hd
  simp only [step, State.nextRequest, hd]

/-- A step on a valid word adds the reversed operand and takes the word; nothing else changes. -/
theorem step_validWord (s : State) (w : Nat) (rest : List Nat) (hw : w < 2 ^ (s.cfg.inW + 1))
    (hv : w.testBit s.cfg.inW = true) :
    step { s with requests := w :: rest } =
      .next { s with requests := rest, responses := s.responses ++ [⟨true, reverse32 (operand w)⟩] } := by
  rw [step_requestWord s w rest hw, if_pos hv, exec_rev32, operand_dataField]
  rfl

/-- A step on an invalid word adds "no result", with a free value on `out_data`, and takes the word. -/
theorem step_invalidWord (s : State) (w : Nat) (rest : List Nat) (hw : w < 2 ^ (s.cfg.inW + 1))
    (hv : w.testBit s.cfg.inW = false) :
    step { s with requests := w :: rest } =
      .next { s with
        requests := rest
        responses := s.responses ++ [⟨false, Config.freeOutData s.freeDraws⟩]
        freeDraws := s.freeDraws + 1 } := by
  rw [step_requestWord s w rest hw, if_neg (Bool.not_eq_true _ ▸ hv), exec_invalid]
  rfl

/-- Settles O30: response and next state depend on a valid word through its operand, and equal low words have equal
operands. -/
theorem highFieldIsIgnored : Obligations.HighFieldIsIgnored := by
  unfold Obligations.HighFieldIsIgnored
  intro s w₁ w₂ rest hw₁ hw₂ hv₁ hv₂ hlow
  have hop : operand w₁ = operand w₂ := operand_eq_of_mod_eq hlow
  have hr₁ := respondWord_valid s.cfg w₁ hv₁
  have hr₂ := respondWord_valid s.cfg w₂ hv₂
  have hs₂ := step_validWord s w₂ rest hw₂ hv₂
  rw [← hop] at hr₂ hs₂
  exact ⟨hr₁.trans hr₂.symm, _, hr₁, step_validWord s w₁ rest hw₁ hv₁, hs₂⟩

/-- Settles O31: the bit `valid` selects one of two rows, and a step completes on each. -/
theorem noEncodingIsReserved : Obligations.NoEncodingIsReserved := by
  unfold Obligations.NoEncodingIsReserved
  intro s w rest hw
  constructor
  · intro hv
    exact ⟨respondWord_invalid s.cfg w hv, _, _, step_invalidWord s w rest hw hv⟩
  · intro hv
    have hr := respondWord_valid s.cfg w hv
    refine ⟨?_, _, hr, step_validWord s w rest hw hv⟩
    rw [hr, respond_true, operand_mod_word]

end Sys2Proof.Machine
end

