-- ==== Sys2Proof/Proofs/ReversalLaws.lean ====
section
/-! SUPPORT. The byte reversal as an involution on normalised operands: the round trip (40_reverse.md R66) and what
normalisation discards (R68). -/

namespace Sys2Proof.Machine

/-! ### The round trip (R66) -/

/-- The lanes of the reversal, named from the operand's side. -/
theorem lane_rev_reverse32 (v : Word32) (i : Fin 4) : lane (reverse32 v) i.rev = lane v i := by
  rw [lane_reverse32, Fin.rev_rev]

@[simp] theorem reverse32_reverse32 (v : Word32) : reverse32 (reverse32 v) = v :=
  eq_of_lanes _ _ fun i => (lane_reverse32 (reverse32 v) i).trans (lane_rev_reverse32 v i)

/-- A number answered to one request and presented again gives back the normalised operand. -/
theorem respond_roundTrip (d : Nat) (r : Word32) (h : respond true d = some r) :
    respond true r.toNat = some (norm32 d) := by
  have hr : reverse32 (operand d) = r := Option.some.inj h
  rw [← hr, respond_true, operand_word, reverse32_reverse32, operand]

/-- Settles O1: the lanes change places twice, and a result presented again is an operand as it stands. -/
theorem reverseTwiceIsIdentity : Obligations.ReverseTwiceIsIdentity := by
  unfold Obligations.ReverseTwiceIsIdentity
  exact ⟨reverse32_reverse32, fun v i => ⟨lane_reverse32 _ i, lane_rev_reverse32 v i⟩, respond_roundTrip⟩

/-! ### What normalisation discards (R68) -/

theorem norm32_eq_of_emod_eq {a b : Int} (h : a % 2 ^ 32 = b % 2 ^ 32) : norm32 a = norm32 b := by
  rw [norm32, norm32, h]

/-- No integer is the only one with its normal form: the next one is 2^32 above it. -/
theorem norm32_add_modulus (a : Int) : norm32 (a + 2 ^ 32) = norm32 a :=
  norm32_eq_of_emod_eq (Int.add_emod_right a _)

theorem operand_add_modulus (n : Nat) : operand (2 ^ 32 + n) = operand n :=
  operand_eq_of_mod_eq (Nat.add_mod_left _ n)

/-- Settles O2: only the residue modulo 2^32 passes normalisation, so no round trip tells `a` from `a + 2^32`. -/
theorem normalisationLaw : Obligations.NormalisationLaw := by
  unfold Obligations.NormalisationLaw
  refine ⟨fun a b hab => ?_, fun v => ?_, fun a => reverse32_reverse32 _, fun a => ⟨a + 2 ^ 32, by omega, ?_⟩⟩
  · rw [norm32_eq_of_emod_eq hab]
  · rw [respond_true, respond_true, operand_add_modulus]
  · rw [norm32_add_modulus]

end Sys2Proof.Machine
end

