-- ==== Sys2Proof/Proofs/RequestKinds.lean ====
section
/-! SUPPORT. What each of the two requests does to a run (40_reverse.md R61, R62), and that a response depends on its
request alone (R69). -/

namespace Sys2Proof.Machine

/-- The row of a request word is the one that its bit `valid` selects (30_encoding.md R51). -/
theorem decode_requestWord (c : Config) (w : Nat) (hw : w < 2 ^ (c.inW + 1)) :
    decode c w = .ok (if w.testBit c.inW then .rev32 (w % 2 ^ c.inW) else .invalid (w % 2 ^ c.inW)) := by
  rw [decode_eq, if_pos ((isRequestWord_iff c w).mpr hw), dataField]

/-! ### Numbers made of bytes -/

theorem append_toNat {m n : Nat} (x : BitVec m) (y : BitVec n) : (x ++ y).toNat = x.toNat * 2 ^ n + y.toNat := by
  rw [BitVec.toNat_append, ← Nat.shiftLeft_add_eq_or_of_lt y.isLt, Nat.shiftLeft_eq]

theorem append4_toNat (a b c d : Byte) :
    (a ++ b ++ c ++ d : Word32).toNat =
      a.toNat * 2 ^ 24 + b.toNat * 2 ^ 16 + c.toNat * 2 ^ 8 + d.toNat := by
  rw [append_toNat, append_toNat, append_toNat]
  omega

/-- The numerical form of the reversal (R61). -/
theorem reverse32_toNat (v : Word32) :
    (reverse32 v).toNat = (lane v 0).toNat * 2 ^ 24 + (lane v 1).toNat * 2 ^ 16 + (lane v 2).toNat * 2 ^ 8 +
      (lane v 3).toNat :=
  append4_toNat _ _ _ _

theorem reverse32_append4 (a b c d : Byte) : reverse32 (a ++ b ++ c ++ d) = d ++ c ++ b ++ a := by
  simp only [reverse32, lane_append4]
  rfl

/-! ### Operands with one lane that may be other than zero (R61) -/

theorem operand_lowByte (b : Byte) : operand b.toNat = 0#8 ++ 0#8 ++ 0#8 ++ b :=
  BitVec.eq_of_toNat_eq (by
    have hb := b.isLt
    rw [operand_toNat, append4_toNat, BitVec.toNat_zero]
    omega)

theorem operand_highByte (b : Byte) : operand (b.toNat * 2 ^ 24) = b ++ 0#8 ++ 0#8 ++ 0#8 :=
  BitVec.eq_of_toNat_eq (by
    have hb := b.isLt
    rw [operand_toNat, append4_toNat, BitVec.toNat_zero]
    omega)

theorem respond_lowByte (b : Byte) : respond true b.toNat = some (b ++ 0#24) := by
  rw [respond_true, operand_lowByte, reverse32_append4]
  exact congrArg some (BitVec.eq_of_toNat_eq (by
    simp only [append_toNat, BitVec.toNat_zero]
    omega))

theorem respond_highByte (b : Byte) : respond true (b.toNat * 2 ^ 24) = some (0#24 ++ b) := by
  rw [respond_true, operand_highByte, reverse32_append4]
  exact congrArg some (BitVec.eq_of_toNat_eq (by
    simp only [append_toNat, BitVec.toNat_zero]
    omega))

/-! ### The two requests (R61, R62) -/

/-- Settles O16: the response is `reverse32` of the operand, and the clauses are what is known of it: its lanes, its
number, its round trip, and that the operand keeps only the low 32 bits. -/
theorem rev32AnswersReversedLanes : Obligations.Rev32AnswersReversedLanes := by
  unfold Obligations.Rev32AnswersReversedLanes
  refine ⟨fun c w hw hv => ?_, fun d s => ?_, fun d e s hde => ?_, by decide, by decide, fun b => ?_, by decide⟩
  · rw [decode_requestWord c w hw, if_pos hv]
  · exact ⟨reverse32 (norm32 d), exec_rev32 d s, respond_true d, rfl, lane_reverse32 _, reverse32_toNat _,
      respond_roundTrip d _ (respond_true d)⟩
  · rw [exec_rev32, exec_rev32, operand_eq_of_mod_eq hde]
  · exact ⟨respond_lowByte b, respond_highByte b⟩

/-- Requests with the same functional answer add responses with the same functional view, in whatever states they
run. -/
theorem exec_toOption_agree (i j : Instr) (s t : State)
    (h : respond i.inValid i.inData = respond j.inValid j.inData) :
    ∃ a b m n, a.toOption = b.toOption ∧
      exec i s = .next { s with responses := s.responses ++ [a], freeDraws := m } ∧
      exec j t = .next { t with responses := t.responses ++ [b], freeDraws := n } := by
  obtain ⟨a, m, ha, hi⟩ := exec_cases i s
  obtain ⟨b, n, hb, hj⟩ := exec_cases j t
  exact ⟨a, b, m, n, ha.trans (h.trans hb.symm), hi, hj⟩

/-- Settles O17: `respond` reads no data of an invalid request, and no state, so neither the data nor an INVALID before
it shows in a response. -/
theorem invalidAnswersNoResult : Obligations.InvalidAnswersNoResult := by
  unfold Obligations.InvalidAnswersNoResult
  refine ⟨fun c w hw hv => ?_, fun d s => ?_, fun d e s => ?_, fun d i s t _ => ?_, respond_false _, by decide⟩
  · rw [decode_requestWord c w hw, if_neg (Bool.not_eq_true _ ▸ hv)]
  · exact ⟨_, _, exec_invalid d s, noResult_toOption _, respond_false d⟩
  · exact exec_toOption_agree (.invalid d) (.invalid e) s s rfl
  · exact exec_toOption_agree i i s t rfl

/-! ### Purity (R69) -/

/-- The port `out_valid` is part of the functional view. -/
theorem outValid_eq_isSome (r : Response) : r.outValid = r.toOption.isSome := by
  cases h : r.outValid <;> simp [Response.toOption, h]

/-- A step that completes with a word next has taken the word and added its response, and nothing else. -/
theorem eq_of_step_next {s t : State} {w : Nat} {rest : List Nat} (hq : s.requests = w :: rest)
    (hs : step s = .next t) :
    ∃ r, r.toOption = respondWord s.cfg w ∧
      t = { s with requests := rest, responses := s.responses ++ [r], freeDraws := t.freeDraws } := by
  obtain ⟨hnil, -⟩ | ⟨_, _, -, -, href⟩ | ⟨w', rest', r, n, hq', -, hr, hnext⟩ := step_cases s
  · cases hq.symm.trans hnil
  · cases hs.symm.trans href
  · obtain ⟨rfl, rfl⟩ := List.cons.inj (hq.symm.trans hq')
    cases hs.symm.trans hnext
    exact ⟨r, hr, rfl⟩

/-- Settles O34: both responses have the functional view `respondWord` of the same configuration and word. -/
theorem responseDependsOnRequestOnly : Obligations.ResponseDependsOnRequestOnly := by
  unfold Obligations.ResponseDependsOnRequestOnly
  intro s₁ s₂ t₁ t₂ w rest₁ rest₂ hcfg hq₁ hq₂ hs₁ hs₂
  obtain ⟨r₁, hr₁, ht₁⟩ := eq_of_step_next hq₁ hs₁
  obtain ⟨r₂, hr₂, ht₂⟩ := eq_of_step_next hq₂ hs₂
  have hr : r₁.toOption = r₂.toOption := by rw [hr₁, hr₂, hcfg]
  exact ⟨r₁, r₂, hr, by rw [outValid_eq_isSome, outValid_eq_isSome, hr], ht₁, ht₂⟩

end Sys2Proof.Machine
end

