-- ==== Sys2Proof/Proofs/Exceptions.lean ====
section
/-! SUPPORT. The one error condition of the block: which requests it answers (60_exceptions.md R92, R94), and that it
leaves no trace on the requests after it (R96). -/

namespace Sys2Proof.Machine

/-! ### Runs that complete

`run_answersExactly` goes from request words to a completed run; here the other way round, for a run that is known to
complete over words nothing is known of. -/

/-- A run ends at a refusal. -/
theorem run_succ_of_refused (n : Nat) (s : State) (r : Refusal) (h : step s = .refused r) :
    run (n + 1) s = .refused r := by
  simp [run, h]

/-- The words that a completed run has taken were request words: any other is refused. -/
theorem requestWords_of_run_next (ws rest : List Nat) (s u : State) (hq : s.requests = ws ++ rest)
    (hrun : run ws.length s = .next u) : ∀ w ∈ ws, s.cfg.isRequestWord w = true := by
  induction ws generalizing s with
  | nil => exact List.forall_mem_nil _
  | cons w ws ih =>
    rw [List.length_cons] at hrun
    obtain ⟨hnil, -⟩ | ⟨_, _, -, -, href⟩ | ⟨w', rest', r, n, hq', hw, -, hnext⟩ := step_cases s
    · cases hq.symm.trans hnil
    · cases hrun.symm.trans (run_succ_of_refused _ _ _ href)
    · obtain ⟨rfl, rfl⟩ := List.cons.inj (hq.symm.trans hq')
      rw [run_succ_of_next _ _ _ hnext] at hrun
      have hws := ih _ rfl hrun
      exact List.forall_mem_cons.mpr ⟨hw, hws⟩

/-- A completed run has answered exactly the words it has taken. -/
theorem answeredExactly_of_run_next (ws rest : List Nat) (s u : State) (hq : s.requests = ws ++ rest)
    (hrun : run ws.length s = .next u) : s.answeredExactly u ws := by
  obtain ⟨u', hrun', hans⟩ := run_answersExactly ws rest s hq (requestWords_of_run_next ws rest s u hq hrun)
  cases hrun.symm.trans hrun'
  exact hans

/-- Two runs of one instance with the same words next: where one completes over a first part of them, so does the
other, and both have answered that part, whatever either had observed or drawn before. -/
theorem run_next_transfer {s t u : State} (ws rest : List Nat) (hcfg : t.cfg = s.cfg)
    (hqs : s.requests = ws ++ rest) (hqt : t.requests = ws ++ rest) (hrun : run ws.length s = .next u) :
    s.answeredExactly u ws ∧ ∃ u', run ws.length t = .next u' ∧ t.answeredExactly u' ws := by
  have hws := requestWords_of_run_next ws rest s u hqs hrun
  exact ⟨answeredExactly_of_run_next ws rest s u hqs hrun, run_answersExactly ws rest t hqt (hcfg ▸ hws)⟩

/-! ### Invalid requests in a row (R96) -/

/-- Each of a row of invalid words is answered "no result". -/
theorem map_respondWord_invalid (c : Config) (bad : List Nat) (hbad : ∀ w ∈ bad, w.testBit c.inW = false) :
    bad.map (respondWord c) = List.replicate bad.length none :=
  List.map_eq_replicate_iff.mpr fun w hw => respondWord_invalid c w (hbad w hw)

/-- A run over invalid words takes them, observes "no result" for each, and stays in the instance. -/
theorem run_invalidWords (s : State) (bad ws : List Nat) (hq : s.requests = bad ++ ws)
    (hbad : ∀ w ∈ bad, w < 2 ^ (s.cfg.inW + 1) ∧ w.testBit s.cfg.inW = false) :
    ∃ t, run bad.length s = .next t ∧ t.cfg = s.cfg ∧ t.requests = ws ∧
      t.observed = s.observed ++ List.replicate bad.length none := by
  obtain ⟨t, hrun, hcfg, hreq, -, hobs⟩ :=
    run_answersExactly bad ws s hq fun w hw => (isRequestWord_iff s.cfg w).mpr (hbad w hw).1
  have hws : t.requests = ws := List.append_cancel_left (hreq.symm.trans hq)
  rw [map_respondWord_invalid s.cfg bad fun w hw => (hbad w hw).2] at hobs
  exact ⟨t, hrun, hcfg, hws, hobs⟩

/-- Settles O42: the state the invalid words leave has the instance and the words of the run without them, and these
two alone fix what a run answers. -/
theorem errorsLeaveNoTrace : Obligations.ErrorsLeaveNoTrace := by
  unfold Obligations.ErrorsLeaveNoTrace
  intro s bad ws hq hbad
  obtain ⟨t, hrun, hcfg, hreq, hobs⟩ := run_invalidWords s bad ws hq hbad
  refine ⟨t, hrun, hcfg, hreq, hobs, fun m u hm hu => ?_⟩
  have hsplit : ws = ws.take m ++ ws.drop m := (List.take_append_drop m ws).symm
  have hlen : (ws.take m).length = m := List.length_take_of_le hm
  obtain ⟨⟨-, hreqU, -, hobsU⟩, u', hu', -, hreqU', -, hobsU'⟩ :=
    run_next_transfer (s := { s with requests := ws }) (ws.take m) (ws.drop m) hcfg hsplit (hreq.trans hsplit)
      (hlen.symm ▸ hu)
  have hrest : u'.requests = u.requests :=
    List.append_cancel_left (hreqU'.symm.trans (hreq.trans hreqU))
  rw [hlen] at hu'
  rw [hcfg] at hobsU'
  exact ⟨u', _, hu', hrest, rfl, hobsU, hobsU'⟩

/-! ### Which requests are errors (R92, R94) -/

/-- Settles O19: REV32 answers the response that carries the reversed operand, for every operand. -/
theorem noNumberIsAnError : Obligations.NoNumberIsAnError := by
  unfold Obligations.NoNumberIsAnError
  intro d s
  exact ⟨.number (reverse32 (norm32 d)), exec_rev32 d s, number_outValid _, number_condition _, number_toOption _⟩

/-- A 40-bit operand loses its top byte before the other four are reversed (R80). -/
theorem respond_fiveByteOperand : respond true 0x0112345678 = some 0x78563412#32 := by decide

/-- Settles O20: the kind of the request alone selects the response; the number that truncating after the reversal
would give differs from the one answered. -/
theorem validityThenNormalisationThenReversal : Obligations.ValidityThenNormalisationThenReversal := by
  unfold Obligations.ValidityThenNormalisationThenReversal
  refine ⟨fun d s => ⟨_, _, exec_invalid d s⟩, respond_false, exec_rev32, respond_fiveByteOperand, ?_⟩
  rw [respond_fiveByteOperand]
  decide

end Sys2Proof.Machine
end

/-! SUPPORT. Words and what they stand for: the request word as its two fields (30_encoding.md sections 1 and 3), the
words of the opcode table in every instance, the response word. -/

namespace Sys2Proof.Machine

/-! ### The request word as its two fields -/

/-- A bit above a field: bit `n` of the number that has `b` there and `d` below. -/
theorem testBit_bit_mul_add {n d : Nat} (b : Bool) (hd : d < 2 ^ n) : (b.toNat * 2 ^ n + d).testBit n = b := by
  have hdiv : (b.toNat * 2 ^ n + d) / 2 ^ n = b.toNat := by
    rw [Nat.add_comm, Nat.add_mul_div_right _ _ (Nat.two_pow_pos n), Nat.div_eq_of_lt hd, Nat.zero_add]
  rw [Nat.testBit_eq_decide_div_mod_eq, hdiv]
  cases b <;> decide

theorem bit_mul_add_mod {n d : Nat} (b : Bool) (hd : d < 2 ^ n) : (b.toNat * 2 ^ n + d) % 2 ^ n = d := by
  rw [Nat.mul_comm, Nat.mul_add_mod, Nat.mod_eq_of_lt hd]

theorem bit_mul_add_lt {n d : Nat} (b : Bool) (hd : d < 2 ^ n) : b.toNat * 2 ^ n + d < 2 ^ (n + 1) := by
  have hb : b.toNat * 2 ^ n ≤ 1 * 2 ^ n := Nat.mul_le_mul_right _ b.toNat_le
  rw [Nat.pow_succ]
  omega

/-- A number with no bit above bit `n` is that bit and the field below it. -/
theorem testBit_mul_add_mod {n w : Nat} (hw : w < 2 ^ (n + 1)) : (w.testBit n).toNat * 2 ^ n + w % 2 ^ n = w := by
  have hdiv : w / 2 ^ n < 2 := Nat.div_lt_of_lt_mul (by rwa [← Nat.pow_succ])
  rw [Nat.toNat_testBit, Nat.mod_eq_of_lt hdiv, Nat.mul_comm]
  exact Nat.div_add_mod w (2 ^ n)

/-- The word of a request has `in_valid` in bit IN_W and `in_data` below it (R47). -/
theorem encode_eq (c : Config) (i : Instr) : encode c i = i.inValid.toNat * 2 ^ c.inW + i.inData := by
  cases i <;> simp [encode, rev32Match, invalidMatch]

/-- Settles O22: the fields of the encoded word are the ports of the request, and the row is selected by the bit
`valid`. -/
theorem decodeOfEncodeIsIdentity : Obligations.DecodeOfEncodeIsIdentity := by
  unfold Obligations.DecodeOfEncodeIsIdentity
  intro c i hi
  have hd : i.inData < 2 ^ c.inW := (wellFormed_iff c i).mp hi
  rw [encode_eq, decode_requestWord c _ (bit_mul_add_lt _ hd), testBit_bit_mul_add _ hd, bit_mul_add_mod _ hd]
  cases i <;> rfl

/-- Settles O23: a word below 2^(IN_W+1) is put together again from the two fields the decoder reads. -/
theorem encodeOfDecodeIsIdentity : Obligations.EncodeOfDecodeIsIdentity := by
  unfold Obligations.EncodeOfDecodeIsIdentity
  intro c w i h
  obtain ⟨hw, hvalid, hdata⟩ := decode_ok c w i h
  constructor
  · rw [encode_eq, hvalid, hdata, testBit_mul_add_mod ((isRequestWord_iff c w).mp hw)]
  · rw [wellFormed_iff, hdata]
    exact Nat.mod_lt _ (Nat.two_pow_pos _)

/-! ### The rows of the opcode map -/

theorem rev32Match_ne_invalidMatch (c : Config) : rev32Match c ≠ invalidMatch := (Nat.two_pow_pos c.inW).ne'

/-- The mask and the match of the row INVALID test that the bit `valid` is 0. -/
theorem validMask_eq_invalidMatch_iff (c : Config) (w : Nat) :
    w &&& validMask c = invalidMatch ↔ w.testBit c.inW = false := by
  rw [validMask, invalidMatch, Nat.and_two_pow]
  cases w.testBit c.inW <;> simp

/-- Settles O24: both rows mask the bit `valid` alone, so its value decides which one matches. -/
theorem everyRequestWordMatchesOneRow : Obligations.EveryRequestWordMatchesOneRow := by
  unfold Obligations.EveryRequestWordMatchesOneRow
  intro c w hw
  rw [decode_requestWord c w hw]
  cases hv : w.testBit c.inW with
  | true =>
    have hrow := (validMask_eq_iff c w).mpr hv
    exact .inl ⟨hrow, hrow ▸ rev32Match_ne_invalidMatch c, rfl⟩
  | false =>
    have hrow := (validMask_eq_invalidMatch_iff c w).mpr hv
    exact .inr ⟨hrow, hrow ▸ (rev32Match_ne_invalidMatch c).symm, rfl⟩

/-- Settles O25: concrete words, decoded by evaluation. -/
theorem workedEncodingsDecode : Obligations.WorkedEncodingsDecode := by
  unfold Obligations.WorkedEncodingsDecode
  decide

/-- Settles O26: the pseudo-operations are other names of the request REV32. -/
theorem pseudoOperationsAreRev32 : Obligations.PseudoOperationsAreRev32 :=
  fun _ _ _ => ⟨rfl, rfl, rfl, rfl⟩

/-! ### The words of the opcode table in every instance -/

/-- Settles O28: a step takes the first word and dispatches on what it decodes to. -/
theorem stepRunsTheDecodedRequest : Obligations.StepRunsTheDecodedRequest := by
  unfold Obligations.StepRunsTheDecodedRequest
  intro s w rest i hq hd
  simp only [step, State.nextRequest, hq, hd]

/-- A word of the table's instance, widened, decodes in every instance to what it decodes to in its own: the bit
`valid` moves to bit IN_W, and the data stays. -/
theorem decode_tableWordFor (c : Config) (w : Nat) (hw : w < 2 ^ (32 + 1)) :
    decode c (tableWordFor c w) = decode Config.tableInstance w := by
  have hfit : w % 2 ^ 32 < 2 ^ c.inW :=
    lt_of_lt_of_le (Nat.mod_lt _ (Nat.two_pow_pos 32)) (Nat.pow_le_pow_right (by decide) (Nat.le_add_right 32 _))
  have hbit : w / 2 ^ 32 = (w.testBit 32).toNat := by
    rw [Nat.toNat_testBit]
    omega
  rw [tableWordFor, hbit, decode_requestWord c _ (bit_mul_add_lt _ hfit), testBit_bit_mul_add _ hfit,
    bit_mul_add_mod _ hfit, decode_requestWord Config.tableInstance w hw]
  rfl

/-- Settles O29: the presented word decodes as the table word does, and the step runs the decoded request. -/
theorem tableWordRunsInEveryInstance : Obligations.TableWordRunsInEveryInstance := by
  unfold Obligations.TableWordRunsInEveryInstance
  intro s nbits w i h
  have hw : tableWord nbits w < 2 ^ (32 + 1) := Nat.mod_lt _ (Nat.two_pow_pos _)
  have hd : decode Config.tableInstance (tableWord nbits w) = .ok i := by
    unfold decodeTableWord at h
    split at h
    · cases h
      assumption
    · cases h
  exact stepRunsTheDecodedRequest (s.withFetchWord nbits w) _ s.requests i rfl
    ((decode_tableWordFor s.cfg _ hw).trans hd)

/-! ### The response word (R48) -/

theorem word_getLsbD (r : Response) (k : Nat) :
    r.word.getLsbD k = if k < 32 then r.outData.getLsbD k else (BitVec.ofBool r.outValid).getLsbD (k - 32) :=
  BitVec.getLsbD_append

theorem word_getLsbD_outValid (r : Response) : r.word.getLsbD 32 = r.outValid := by
  rw [word_getLsbD, if_neg (Nat.lt_irrefl 32), BitVec.getLsbD_ofBool]
  rfl

theorem word_extractLsb'_outData (r : Response) : r.word.extractLsb' 0 32 = r.outData := by
  apply BitVec.eq_of_getLsbD_eq
  intro k hk
  rw [BitVec.getLsbD_extractLsb', decide_eq_true hk, Bool.true_and, Nat.zero_add, word_getLsbD, if_pos hk]

theorem ofWord_word (r : Response) : Response.ofWord r.word = r := by
  rw [Response.ofWord, word_getLsbD_outValid, word_extractLsb'_outData]

theorem word_ofWord (w : BitVec 33) : (Response.ofWord w).word = w := by
  apply BitVec.eq_of_getLsbD_eq
  intro k hk
  by_cases hlow : k < 32
  · rw [word_getLsbD, if_pos hlow, Response.ofWord, BitVec.getLsbD_extractLsb', decide_eq_true hlow, Bool.true_and,
      Nat.zero_add]
  · obtain rfl : k = 32 := by omega
    exact word_getLsbD_outValid _

/-- Settles O27: 33 bits are the bit `out_valid` and the 32 bits of `out_data`. -/
theorem responseWordRoundTrips : Obligations.ResponseWordRoundTrips := by
  unfold Obligations.ResponseWordRoundTrips
  exact ⟨fun r => ⟨ofWord_word r, word_getLsbD_outValid r, word_extractLsb'_outData r⟩, word_ofWord⟩

end Sys2Proof.Machine

/-! SUPPORT. What a completed step has done, the invariants it keeps (10_state.md section 3), and what a run of any
number of steps comes to (70_reset_and_hazards.md section 5). -/

namespace Sys2Proof.Machine

/-! ### The two requests -/

/-- Settles O18: this is what `exec_cases` says of a request. -/
theorem machineAnswersRespond : Obligations.MachineAnswersRespond := by
  unfold Obligations.MachineAnswersRespond
  refine ⟨fun d => ⟨respond_true d, respond_false d⟩, fun i s => ?_⟩
  obtain ⟨r, n, hr, he⟩ := exec_cases i s
  exact ⟨r, n, he, hr⟩

/-- A response reports the condition where its functional view is none. -/
theorem condition_eq_noResult_iff (r : Response) : r.condition = some .noResult ↔ r.toOption = none := by
  cases h : r.outValid <;> simp [Response.condition, Response.toOption, h]

theorem respond_eq_none_iff (i : Instr) : respond i.inValid i.inData = none ↔ ∃ d, i = .invalid d := by
  cases i <;> simp

/-- Settles O21: the response reports the condition where `respond` has no number, which is the row INVALID. -/
theorem conditionRaisedByInvalidOnly : Obligations.ConditionRaisedByInvalidOnly := by
  unfold Obligations.ConditionRaisedByInvalidOnly
  refine ⟨fun a b => by cases a; cases b; rfl, fun i s t ht => ?_⟩
  obtain ⟨r, n, hr, he⟩ := exec_cases i s
  cases ht.symm.trans he
  exact ⟨r, rfl, by rw [condition_eq_noResult_iff, hr, respond_eq_none_iff]⟩

/-! ### What a step has done when it completes, and when it does not -/

/-- A step that completes had no request and changed nothing, or it has answered the next word. -/
theorem step_next_cases {s t : State} (h : step s = .next t) :
    (s.requests = [] ∧ t = s) ∨ ∃ w rest, s.requests = w :: rest ∧ s.answeredExactly t [w] := by
  obtain ⟨hq, hs⟩ | ⟨_, _, -, -, hs⟩ | ⟨w, rest, r, n, hq, hw, -, -⟩ := step_cases s
  · cases hs.symm.trans h
    exact .inl ⟨hq, rfl⟩
  · cases hs.symm.trans h
  · obtain ⟨t', hs, hans⟩ := step_answersExactly s w rest hq hw
    cases hs.symm.trans h
    exact .inr ⟨w, rest, hq, hans⟩

/-- A step of a run without requests changes nothing (log 6). -/
theorem step_of_requests_nil {s : State} (hq : s.requests = []) : step s = .next s := by
  simp only [step, State.nextRequest, hq]

/-- Settles O33: a finished run has no request left. -/
theorem finishedRunStays : Obligations.FinishedRunStays :=
  fun _ hs => step_of_requests_nil (List.isEmpty_iff.mp hs)

/-- Settles O32: of the three things a step can do, only the second is a refusal, and only there the next number has
a bit above bit IN_W. -/
theorem onlyUnrepresentableWordsAreRefused : Obligations.OnlyUnrepresentableWordsAreRefused := by
  unfold Obligations.OnlyUnrepresentableWordsAreRefused
  intro s r
  have hwide (w : Nat) : s.cfg.isRequestWord w = false ↔ 2 ^ (s.cfg.inW + 1) ≤ w :=
    decide_eq_false_iff_not.trans not_lt
  obtain ⟨hq, hs⟩ | ⟨w, rest, hq, hw, hs⟩ | ⟨w, rest, _, _, hq, hw, -, hs⟩ := step_cases s
  · simp [hs, hq]
  · simpa [hs, hq, eq_comm] using fun _ => (hwide w).mp hw
  · simpa [hs, hq] using fun _ => (isRequestWord_iff s.cfg w).mp hw

/-! ### Invariants of a run -/

/-- What a part of a run has answered is entered in the books. -/
theorem accountsFor_of_answeredExactly {s t : State} {all ws : List Nat} (hs : s.accountsFor all)
    (hst : s.answeredExactly t ws) : t.accountsFor all := by
  obtain ⟨answered, hall, hobs⟩ := hs
  obtain ⟨hcfg, hreq, -, hobs'⟩ := hst
  refine ⟨answered ++ ws, ?_, ?_⟩
  · rw [hall, hreq, List.append_assoc]
  · rw [hobs', hobs, hcfg, List.map_append]

/-- Settles O36: a completed step has answered the next word, if there is one, and enters it in the books. -/
theorem stepKeepsTheBooks : Obligations.StepKeepsTheBooks := by
  unfold Obligations.StepKeepsTheBooks
  intro all s t hs hstep
  obtain ⟨-, rfl⟩ | ⟨w, rest, -, hans⟩ := step_next_cases hstep
  · exact hs
  · exact accountsFor_of_answeredExactly hs hans

/-- Settles O37: nothing is answered yet. -/
theorem booksBalanceAtStart : Obligations.BooksBalanceAtStart :=
  ⟨⟨[], rfl, rfl⟩, fun _ _ _ => ⟨[], rfl, rfl⟩⟩

/-- The words left of a well-formed queue are words of the same instance. -/
theorem queueWellFormed_of_answeredExactly {s t : State} {ws : List Nat} (hs : s.queueWellFormed = true)
    (hst : s.answeredExactly t ws) : t.queueWellFormed = true := by
  obtain ⟨hcfg, hreq, -, -⟩ := hst
  rw [queueWellFormed_iff] at hs ⊢
  intro w hw
  rw [hcfg]
  exact hs w (hreq ▸ List.mem_append_right ws hw)

/-- Settles O38: a completed step leaves a last part of the queue, in the same instance. -/
theorem stepKeepsInstanceAndQueue : Obligations.StepKeepsInstanceAndQueue := by
  unfold Obligations.StepKeepsInstanceAndQueue
  intro s t hs hstep
  obtain ⟨-, rfl⟩ | ⟨w, rest, -, hans⟩ := step_next_cases hstep
  · exact ⟨hs, rfl⟩
  · have ⟨hcfg, _⟩ := hans
    exact ⟨queueWellFormed_of_answeredExactly hs hans, hcfg⟩

/-- Settles O39: no word is held at reset. -/
theorem resetQueueWellFormed : Obligations.ResetQueueWellFormed := rfl

/-- Settles O35: by the definition of `State.reset`. -/
theorem resetHoldsNothing : Obligations.ResetHoldsNothing := ⟨rfl, rfl, rfl⟩

/-! ### Runs of any number of steps -/

/-- A run goes on from where its first part leaves it. -/
theorem run_add_of_next {m : Nat} {s t : State} (k : Nat) (h : run m s = .next t) : run (m + k) s = run k t := by
  induction m generalizing s with
  | zero =>
    cases h
    rw [Nat.zero_add]
  | succ m ih =>
    rw [Nat.succ_add]
    cases hs : step s with
    | next u =>
      rw [run_succ_of_next _ _ _ hs] at h ⊢
      exact ih h
    | fault r => exact r.rec
    | refused r => cases h.symm.trans (run_succ_of_refused _ _ _ hs)

theorem run_of_requests_nil {s : State} (hq : s.requests = []) (n : Nat) : run n s = .next s := by
  induction n with
  | zero => rfl
  | succ n ih => rw [run_succ_of_next _ _ _ (step_of_requests_nil hq), ih]

/-- The words that a part of a run leaves are the rest of the queue. -/
theorem requests_of_answeredExactly {s t : State} {ws rest : List Nat} (hq : s.requests = ws ++ rest)
    (hst : s.answeredExactly t ws) : t.requests = rest := by
  obtain ⟨-, hreq, -, -⟩ := hst
  exact List.append_cancel_left (hreq.symm.trans hq)

/-- A run over request words answers as many of them as it has steps, or all of them. -/
theorem run_answers_take (n : Nat) (s : State) (hs : s.queueWellFormed = true) :
    ∃ t, run n s = .next t ∧ s.answeredExactly t (s.requests.take n) := by
  have hsplit : s.requests = s.requests.take n ++ s.requests.drop n := (List.take_append_drop n _).symm
  have hwords := (queueWellFormed_iff s).mp hs
  obtain ⟨t, hrun, hans⟩ := run_answersExactly _ _ s hsplit fun w hw => hwords w (List.mem_of_mem_take hw)
  refine ⟨t, ?_, hans⟩
  obtain hn | hn := Nat.le_total n s.requests.length
  · rwa [List.length_take_of_le hn] at hrun
  · have hend : t.requests = [] := (requests_of_answeredExactly hsplit hans).trans (List.drop_eq_nil_of_le hn)
    rw [List.take_of_length_le hn] at hrun
    rw [← Nat.add_sub_of_le hn, run_add_of_next _ hrun, run_of_requests_nil hend]

/-- Settles O40: up to the number of requests, each step has one to answer. -/
theorem runAnswersRequestsInOrder : Obligations.RunAnswersRequestsInOrder :=
  fun n s hs _ => run_answers_take n s hs

/-- Every answered word has one response. -/
theorem responses_length_of_answeredExactly {s t : State} {ws : List Nat} (hst : s.answeredExactly t ws) :
    t.responses.length = s.responses.length + ws.length := by
  obtain ⟨-, -, -, hobs⟩ := hst
  simpa [State.observed] using congrArg List.length hobs

/-- Settles O41: with at least as many steps as requests the run has answered the whole queue, and none is left. -/
theorem everyRunCompletes : Obligations.EveryRunCompletes := by
  unfold Obligations.EveryRunCompletes
  intro n s hs
  obtain ⟨t, hrun, hans⟩ := run_answers_take n s hs
  refine ⟨t, hrun, fun hn => ?_⟩
  rw [List.take_of_length_le hn] at hans
  have hend : t.requests = [] := requests_of_answeredExactly (List.append_nil _).symm hans
  exact ⟨List.isEmpty_iff.mpr hend, responses_length_of_answeredExactly hans, step_of_requests_nil hend⟩

/-- Settles O44: the two runs took request words, so the joined run completes, and it answers word by word what they
answer. -/
theorem batchMayBeSplit : Obligations.BatchMayBeSplit := by
  unfold Obligations.BatchMayBeSplit
  intro c a b j k l tA tB hA hB
  have hwordsA := requestWords_of_run_next a [] ⟨c, a, [], j⟩ tA (List.append_nil a).symm hA
  have hwordsB := requestWords_of_run_next b [] ⟨c, b, [], k⟩ tB (List.append_nil b).symm hB
  obtain ⟨-, -, -, hobsA⟩ := answeredExactly_of_run_next a [] ⟨c, a, [], j⟩ tA (List.append_nil a).symm hA
  obtain ⟨-, -, -, hobsB⟩ := answeredExactly_of_run_next b [] ⟨c, b, [], k⟩ tB (List.append_nil b).symm hB
  obtain ⟨t, hrun, -, -, -, hobs⟩ := run_answersExactly (a ++ b) [] ⟨c, a ++ b, [], l⟩ (List.append_nil _).symm
    (List.forall_mem_append.mpr ⟨hwordsA, hwordsB⟩)
  refine ⟨t, hrun, ?_⟩
  rw [hobs, hobsA, hobsB, List.map_append]
  rfl

end Sys2Proof.Machine

/-! SUPPORT. Infinite runs (10_state.md section 3): one invocation at a time they answer what the finite runs over their
first words answer. -/

namespace Sys2Proof.Machine

/-- An invocation that completes was given a request word; it adds the response of that word and keeps the instance
and the requests held for later. -/
theorem of_invoke_next {s t : State} {w : Nat} (h : invoke s w = .next t) :
    s.cfg.isRequestWord w = true ∧ t.cfg = s.cfg ∧ t.requests = s.requests ∧
      t.observed = s.observed ++ [respondWord s.cfg w] := by
  obtain ⟨-, hrefused⟩ | ⟨hw, r, n, hr, hnext⟩ := invoke_cases s w
  · cases hrefused.symm.trans h
  · cases hnext.symm.trans h
    exact ⟨hw, rfl, rfl, by simp [State.observed, hr]⟩

/-! ### What an infinite run keeps and observes -/

theorem infiniteRun_cfg {env : Nat → Nat} {states : Nat → State} (h : infiniteRun env states) (n : Nat) :
    (states n).cfg = (states 0).cfg := by
  induction n with
  | zero => rfl
  | succ n ih =>
    obtain ⟨-, hcfg, -, -⟩ := of_invoke_next (h n)
    exact hcfg.trans ih

theorem infiniteRun_requests {env : Nat → Nat} {states : Nat → State} (h : infiniteRun env states) (n : Nat) :
    (states n).requests = (states 0).requests := by
  induction n with
  | zero => rfl
  | succ n ih =>
    obtain ⟨-, -, hreq, -⟩ := of_invoke_next (h n)
    exact hreq.trans ih

/-- Every word of an infinite run is a request word of its instance. -/
theorem infiniteRun_isRequestWord {env : Nat → Nat} {states : Nat → State} (h : infiniteRun env states) (n : Nat) :
    (states 0).cfg.isRequestWord (env n) = true := by
  obtain ⟨hw, -, -, -⟩ := of_invoke_next (h n)
  rwa [infiniteRun_cfg h n] at hw

/-- Each invocation of an infinite run adds `respondWord` of its word. -/
theorem infiniteRun_observes {env : Nat → Nat} {states : Nat → State} (h : infiniteRun env states) :
    observesForever states fun n => respondWord (states 0).cfg (env n) := by
  intro n
  obtain ⟨-, -, -, hobs⟩ := of_invoke_next (h n)
  rwa [infiniteRun_cfg h n] at hobs

/-- What is observed for ever is observed up to any position. -/
theorem observed_of_observesForever {states : Nat → State} {obs : Nat → Option Word32}
    (h : observesForever states obs) (n : Nat) :
    (states n).observed = (states 0).observed ++ (List.range n).map obs := by
  induction n with
  | zero => simp
  | succ n ih => rw [h n, ih, List.range_succ, List.map_append, List.append_assoc, List.map_singleton]

/-- A sequence of states has at most one observation. -/
theorem observesForever_unique {states : Nat → State} {obs obs' : Nat → Option Word32}
    (h : observesForever states obs) (h' : observesForever states obs') (n : Nat) : obs n = obs' n :=
  List.singleton_inj.mp (List.append_cancel_left ((h n).symm.trans (h' n)))

/-! ### Existence of infinite runs -/

/-- The run after an invocation; a refused one leaves it as it is. -/
def State.afterInvoke (s : State) (w : Nat) : State :=
  match invoke s w with
  | .next t => t
  | .fault _ => s
  | .refused _ => s

/-- The states in which a run from `s` answers the words of an infinite sequence. -/
def State.statesFrom (s : State) (env : Nat → Nat) : Nat → State
  | 0 => s
  | n + 1 => (s.statesFrom env n).afterInvoke (env n)

/-- A request word is answered, and `afterInvoke` is the state in which it has been. -/
theorem invoke_eq_afterInvoke {s : State} {w : Nat} (hw : s.cfg.isRequestWord w = true) :
    invoke s w = .next (s.afterInvoke w) := by
  obtain ⟨hw', -⟩ | ⟨-, r, n, -, hnext⟩ := invoke_cases s w
  · cases hw.symm.trans hw'
  · rw [State.afterInvoke, hnext]

/-- Over request words no invocation is refused, so `statesFrom` is an infinite run. -/
theorem infiniteRun_statesFrom (s : State) (env : Nat → Nat) (henv : ∀ n, s.cfg.isRequestWord (env n) = true) :
    infiniteRun env (s.statesFrom env) := by
  have hcfg (n : Nat) : (s.statesFrom env n).cfg = s.cfg := by
    induction n with
    | zero => rfl
    | succ n ih =>
      obtain ⟨-, hkeep, -, -⟩ := of_invoke_next (invoke_eq_afterInvoke (ih.symm ▸ henv n))
      exact hkeep.trans ih
  exact fun n => invoke_eq_afterInvoke ((hcfg n).symm ▸ henv n)

/-- Settles O50: the run is built word by word, and each invocation fixes the response it adds. -/
theorem infiniteRunIsAnsweredPointwise : Obligations.InfiniteRunIsAnsweredPointwise := by
  unfold Obligations.InfiniteRunIsAnsweredPointwise
  constructor
  · intro s env henv
    have hrun := infiniteRun_statesFrom s env fun n => (isRequestWord_iff s.cfg _).mpr (henv n)
    exact ⟨s.statesFrom env, rfl, hrun, infiniteRun_observes hrun⟩
  · intro env states hrun
    have hobserves := infiniteRun_observes hrun
    refine ⟨fun obs => ⟨fun hobs n => observesForever_unique hobs hobserves n, fun hobs n => ?_⟩,
      fun n => ⟨infiniteRun_cfg hrun n, infiniteRun_requests hrun n⟩⟩
    rw [hobs n]
    exact hobserves n

/-! ### The finite runs that begin an infinite one -/

/-- Settles O51: the finite run answers the same words, and what a run answers depends on its words and instance. -/
theorem infiniteRunBeginsWithFiniteRuns : Obligations.InfiniteRunBeginsWithFiniteRuns := by
  unfold Obligations.InfiniteRunBeginsWithFiniteRuns
  intro env states h n
  have hwords : ∀ w ∈ (List.range n).map env, (states 0).cfg.isRequestWord w = true :=
    List.forall_mem_map.mpr fun k _ => infiniteRun_isRequestWord h k
  obtain ⟨t, hrun, hans⟩ := run_answersExactly _ (states 0).requests ((states 0).presentFirst env n)
    (presentFirst_requests _ _ _) hwords
  have hreq : t.requests = (states 0).requests := requests_of_answeredExactly (presentFirst_requests _ _ _) hans
  obtain ⟨hcfg, -, -, hobs⟩ := hans
  rw [List.length_map, List.length_range] at hrun
  rw [List.map_map] at hobs
  have hobs' := observed_of_observesForever (infiniteRun_observes h) n
  exact ⟨t, hrun, hcfg.trans (infiniteRun_cfg h n).symm, hreq.trans (infiniteRun_requests h n).symm,
    hobs.trans hobs'.symm, hobs⟩

end Sys2Proof.Machine

/-! SUPPORT. A value as its four bytes, and what the operators of the other forms do to the bytes: masks, shifts and
rotations by whole lanes. From these the forms of 40_reverse.md section 2 and 20_memory.md section 2 are the byte
reversal by rearranging bytes. -/

namespace Sys2Proof.Machine

/-! ### Normalisation (00_scope.md section 5) -/

theorem norm32_toNat (n : Int) : ((norm32 n).toNat : Int) = n % 2 ^ 32 := by
  rw [norm32, BitVec.toNat_ofNat]
  omega

/-- Settles O4: a 32-bit value is its own residue, so the residue of `n` is met by one value. -/
theorem normalisationIsFlooredModulo : Obligations.NormalisationIsFlooredModulo := by
  unfold Obligations.NormalisationIsFlooredModulo
  refine ⟨norm32_toNat, fun n w hw => BitVec.eq_of_toNat_eq ?_, by decide, by decide⟩
  have hn := norm32_toNat n
  have hlt := w.isLt
  omega

/-! ### A value as its four bytes -/

/-- The value with the given bytes, the most significant first. -/
def ofBytes (a b c d : Byte) : Word32 := a ++ b ++ c ++ d

theorem lane_ofBytes (a b c d : Byte) (i : Fin 4) : lane (ofBytes a b c d) i = #v[d, c, b, a][i] :=
  lane_append4 a b c d i

@[simp] theorem lane_zero_ofBytes (a b c d : Byte) : lane (ofBytes a b c d) 0 = d := lane_ofBytes a b c d 0
@[simp] theorem lane_one_ofBytes (a b c d : Byte) : lane (ofBytes a b c d) 1 = c := lane_ofBytes a b c d 1
@[simp] theorem lane_two_ofBytes (a b c d : Byte) : lane (ofBytes a b c d) 2 = b := lane_ofBytes a b c d 2
@[simp] theorem lane_three_ofBytes (a b c d : Byte) : lane (ofBytes a b c d) 3 = a := lane_ofBytes a b c d 3

theorem ofBytes_toNat (a b c d : Byte) :
    (ofBytes a b c d).toNat = a.toNat * 2 ^ 24 + b.toNat * 2 ^ 16 + c.toNat * 2 ^ 8 + d.toNat :=
  append4_toNat a b c d

theorem ofBytes_lanes (v : Word32) : ofBytes (lane v 3) (lane v 2) (lane v 1) (lane v 0) = v := by
  apply eq_of_lanes
  intro i
  rw [lane_ofBytes]
  fin_cases i <;> rfl

theorem exists_ofBytes (v : Word32) : ∃ a b c d, v = ofBytes a b c d := ⟨_, _, _, _, (ofBytes_lanes v).symm⟩

@[simp] theorem reverse32_ofBytes (a b c d : Byte) : reverse32 (ofBytes a b c d) = ofBytes d c b a :=
  reverse32_append4 a b c d

/-- Settles O5: this is the number that four bytes make. -/
theorem valueIsSumOfLanes : Obligations.ValueIsSumOfLanes := by
  unfold Obligations.ValueIsSumOfLanes
  intro v
  have h := ofBytes_toNat (lane v 3) (lane v 2) (lane v 1) (lane v 0)
  rwa [ofBytes_lanes] at h

/-! ### Bitwise operators act on each byte -/

@[simp] theorem ofBytes_and (a b c d a' b' c' d' : Byte) :
    ofBytes a b c d &&& ofBytes a' b' c' d' = ofBytes (a &&& a') (b &&& b') (c &&& c') (d &&& d') := by
  simp only [ofBytes, ← BitVec.and_append]

@[simp] theorem ofBytes_or (a b c d a' b' c' d' : Byte) :
    ofBytes a b c d ||| ofBytes a' b' c' d' = ofBytes (a ||| a') (b ||| b') (c ||| c') (d ||| d') := by
  simp only [ofBytes, ← BitVec.or_append]

@[simp] theorem ofBytes_xor (a b c d a' b' c' d' : Byte) :
    ofBytes a b c d ^^^ ofBytes a' b' c' d' = ofBytes (a ^^^ a') (b ^^^ b') (c ^^^ c') (d ^^^ d') := by
  simp only [ofBytes, ← BitVec.xor_append]

@[simp] theorem ofBytes_not (a b c d : Byte) : ~~~(ofBytes a b c d) = ofBytes (~~~a) (~~~b) (~~~c) (~~~d) := by
  simp only [ofBytes, ← BitVec.not_append]

/-! ### Shifts and rotations by whole lanes -/

@[simp] theorem ofBytes_shiftLeft_8 (a b c d : Byte) : ofBytes a b c d <<< 8 = ofBytes b c d 0#8 := by
  apply BitVec.eq_of_toNat_eq
  rw [BitVec.toNat_shiftLeft, Nat.shiftLeft_eq, ofBytes_toNat, ofBytes_toNat, BitVec.toNat_zero]
  omega

@[simp] theorem ofBytes_shiftLeft_16 (a b c d : Byte) : ofBytes a b c d <<< 16 = ofBytes c d 0#8 0#8 := by
  rw [BitVec.shiftLeft_add _ 8 8, ofBytes_shiftLeft_8, ofBytes_shiftLeft_8]

@[simp] theorem ofBytes_shiftLeft_24 (a b c d : Byte) : ofBytes a b c d <<< 24 = ofBytes d 0#8 0#8 0#8 := by
  rw [BitVec.shiftLeft_add _ 16 8, ofBytes_shiftLeft_16, ofBytes_shiftLeft_8]

@[simp] theorem ofBytes_shiftRight_8 (a b c d : Byte) : ofBytes a b c d >>> 8 = ofBytes 0#8 a b c := by
  apply BitVec.eq_of_toNat_eq
  rw [BitVec.toNat_ushiftRight, Nat.shiftRight_eq_div_pow, ofBytes_toNat, ofBytes_toNat, BitVec.toNat_zero]
  omega

@[simp] theorem ofBytes_shiftRight_16 (a b c d : Byte) : ofBytes a b c d >>> 16 = ofBytes 0#8 0#8 a b := by
  rw [BitVec.shiftRight_add _ 8 8, ofBytes_shiftRight_8, ofBytes_shiftRight_8]

@[simp] theorem ofBytes_shiftRight_24 (a b c d : Byte) : ofBytes a b c d >>> 24 = ofBytes 0#8 0#8 0#8 a := by
  rw [BitVec.shiftRight_add _ 16 8, ofBytes_shiftRight_16, ofBytes_shiftRight_8]

@[simp] theorem ofBytes_rotateLeft_8 (a b c d : Byte) : (ofBytes a b c d).rotateLeft 8 = ofBytes b c d a := by
  rw [BitVec.rotateLeft_def]
  simp

@[simp] theorem ofBytes_rotateLeft_16 (a b c d : Byte) : (ofBytes a b c d).rotateLeft 16 = ofBytes c d a b := by
  rw [BitVec.rotateLeft_def]
  simp

@[simp] theorem ofBytes_rotateLeft_24 (a b c d : Byte) : (ofBytes a b c d).rotateLeft 24 = ofBytes d a b c := by
  rw [BitVec.rotateLeft_def]
  simp

/-! ### The forms of the byte reversal -/

@[simp] theorem byte_and_0xFF (b : Byte) : b &&& 0xFF#8 = b := BitVec.and_allOnes

theorem mask_lane0 : 0x000000FF#32 = ofBytes 0#8 0#8 0#8 0xFF#8 := rfl
theorem mask_lane1 : 0x0000FF00#32 = ofBytes 0#8 0#8 0xFF#8 0#8 := rfl
theorem mask_lane2 : 0x00FF0000#32 = ofBytes 0#8 0xFF#8 0#8 0#8 := rfl
theorem mask_lane3 : 0xFF000000#32 = ofBytes 0xFF#8 0#8 0#8 0#8 := rfl
theorem mask_lanes02 : 0x00FF00FF#32 = ofBytes 0#8 0xFF#8 0#8 0xFF#8 := rfl
theorem mask_lanes13 : 0xFF00FF00#32 = ofBytes 0xFF#8 0#8 0xFF#8 0#8 := rfl

/-- Terms that occupy disjoint lanes may be added in the place of `|` (C1). -/
theorem ofBytes_add_disjoint (a b c d : Byte) :
    ofBytes a 0#8 0#8 0#8 + ofBytes 0#8 b 0#8 0#8 + ofBytes 0#8 0#8 c 0#8 + ofBytes 0#8 0#8 0#8 d =
      ofBytes a b c d := by
  apply BitVec.eq_of_toNat_eq
  simp only [BitVec.toNat_add, ofBytes_toNat, BitVec.toNat_zero]
  omega

theorem lane0_moved (a b c d : Byte) : (ofBytes a b c d &&& 0x000000FF#32) <<< 24 = ofBytes d 0#8 0#8 0#8 := by
  simp [mask_lane0]

theorem lane1_moved (a b c d : Byte) : (ofBytes a b c d &&& 0x0000FF00#32) <<< 8 = ofBytes 0#8 c 0#8 0#8 := by
  simp [mask_lane1]

theorem lane2_moved (a b c d : Byte) : (ofBytes a b c d &&& 0x00FF0000#32) >>> 8 = ofBytes 0#8 0#8 b 0#8 := by
  simp [mask_lane2]

theorem lane3_moved (a b c d : Byte) : (ofBytes a b c d &&& 0xFF000000#32) >>> 24 = ofBytes 0#8 0#8 0#8 a := by
  simp [mask_lane3]

theorem reverseByExtraction_ofBytes (a b c d : Byte) : reverseByExtraction (ofBytes a b c d) = ofBytes d c b a := by
  simp [reverseByExtraction, mask_lane0]

/-- Settles O8: each masked and shifted term is one byte of the operand in its new lane, and zero bytes are neutral
for `|`, `+` and `^` alike. -/
theorem shiftAndMaskForms : Obligations.ShiftAndMaskForms := by
  unfold Obligations.ShiftAndMaskForms
  intro v
  obtain ⟨a, b, c, d, rfl⟩ := exists_ofBytes v
  rw [reverseByMasks, lane0_moved, lane1_moved, lane2_moved, lane3_moved, reverse32_ofBytes]
  refine ⟨?_, reverseByExtraction_ofBytes a b c d, ofBytes_add_disjoint d c b a, ?_⟩
  · simp only [ofBytes_or, BitVec.or_zero, BitVec.zero_or]
  · simp only [ofBytes_xor, BitVec.xor_zero, BitVec.zero_xor]

theorem reverseByRotations_ofBytes (a b c d : Byte) : reverseByRotations (ofBytes a b c d) = ofBytes d c b a := by
  simp [reverseByRotations, mask_lanes02, mask_lanes13]

theorem reverseByHalves_ofBytes (a b c d : Byte) : reverseByHalves (ofBytes a b c d) = ofBytes d c b a := by
  simp [reverseByHalves, mask_lanes02, mask_lanes13]

/-- Settles O11: two masked rotations, or one rotation and two masked shifts, put each byte in its new lane. -/
theorem rotationForms : Obligations.RotationForms := by
  unfold Obligations.RotationForms
  intro v
  obtain ⟨a, b, c, d, rfl⟩ := exists_ofBytes v
  rw [reverse32_ofBytes]
  exact ⟨reverseByRotations_ofBytes a b c d, reverseByHalves_ofBytes a b c d⟩

/-- Settles O9: the byte read as most significant is the lane 0 of the value written. -/
theorem bufferStrategyAgrees : Obligations.BufferStrategyAgrees := by
  unfold Obligations.BufferStrategyAgrees
  intro v
  have hBE : reverseByBufferBE v = reverse32 v := rfl
  have hLE : reverseByBufferLE v = reverse32 v := rfl
  obtain ⟨hmasks, -⟩ := shiftAndMaskForms v
  exact ⟨hBE, hLE, hBE.trans hmasks.symm⟩

/-! ### Byte sequences (20_memory.md section 2) -/

theorem byteSeq_eta (b : ByteSeq) : #v[b[0], b[1], b[2], b[3]] = b := by
  apply Vector.ext
  intro i hi
  interval_cases i <;> rfl

theorem bytesBE_ofBytes (a b c d : Byte) : bytesBE (ofBytes a b c d) = #v[a, b, c, d] := by
  simp [bytesBE]

/-- The two orders read the same sequence from its two ends. -/
theorem fromLE_eq (b : ByteSeq) : fromLE b = fromBE (reverseSeq b) := rfl

theorem bytesLE_eq (v : Word32) : bytesLE v = reverseSeq (bytesBE v) := rfl

theorem reverseSeq_reverseSeq (b : ByteSeq) : reverseSeq (reverseSeq b) = b := byteSeq_eta b

theorem fromBE_bytesBE (v : Word32) : fromBE (bytesBE v) = v := ofBytes_lanes v

theorem bytesBE_fromBE (b : ByteSeq) : bytesBE (fromBE b) = b :=
  (bytesBE_ofBytes b[0] b[1] b[2] b[3]).trans (byteSeq_eta b)

/-- Settles O10: the little-endian order is the big-endian one backwards, and so are its round trips. -/
theorem sameOrderRoundTrips : Obligations.SameOrderRoundTrips := by
  unfold Obligations.SameOrderRoundTrips
  refine ⟨fun v => ⟨fromBE_bytesBE v, ?_, bytesLE_eq v⟩, fun b => ⟨bytesBE_fromBE b, ?_, fromLE_eq b⟩⟩
  · rw [bytesLE_eq, fromLE_eq, reverseSeq_reverseSeq, fromBE_bytesBE]
  · rw [bytesLE_eq, fromLE_eq, bytesBE_fromBE, reverseSeq_reverseSeq]

end Sys2Proof.Machine

/-! SUPPORT. The byte reversal bit by bit, and its derived laws (40_reverse.md sections 2 and 3). -/

namespace Sys2Proof.Machine

/-! ### The map of bit positions (R64) -/

theorem sourceBit_lt {i : Nat} (hi : i < 32) : sourceBit i < 32 := by
  unfold sourceBit
  omega

theorem sourceBit_sourceBit {i : Nat} (hi : i < 32) : sourceBit (sourceBit i) = i := by
  unfold sourceBit
  omega

theorem sourceBit_eq {i : Nat} (hi : i < 32) : sourceBit i = 8 * (3 - i / 8) + i % 8 := by
  unfold sourceBit
  omega

/-- A bit of a value is a bit of the lane it lies in. -/
theorem getLsbD_eq_lane (v : Word32) {i : Nat} (hi : i < 32) :
    v.getLsbD i = (lane v ⟨i / 8, by omega⟩).getLsbD (i % 8) := by
  rw [lane_getLsbD _ _ _ (Nat.mod_lt i (by decide)), Nat.div_add_mod]

theorem reverse32_getLsbD (v : Word32) {i : Nat} (hi : i < 32) :
    (reverse32 v).getLsbD i = v.getLsbD (8 * (3 - i / 8) + i % 8) := by
  have hrev : 4 - (i / 8 + 1) = 3 - i / 8 := by omega
  rw [getLsbD_eq_lane _ hi, lane_reverse32, lane_getLsbD _ _ _ (Nat.mod_lt i (by decide)), Fin.val_rev, hrev]

/-- Settles O6: a bit of the result is the bit at its place in the opposite lane. -/
theorem bitMapOfReversal : Obligations.BitMapOfReversal := by
  unfold Obligations.BitMapOfReversal
  refine ⟨fun v i hi => reverse32_getLsbD v hi, fun v i hi => ?_, fun i hi => ⟨sourceBit_lt hi, sourceBit_sourceBit hi⟩⟩
  rw [sourceBit_eq hi, reverse32_getLsbD v hi]

/-- Settles O7: a lane moves as a whole; bit 24 of the reversed 1 is set, where reading the bits backwards shows bit
7 of it. -/
theorem byteReversalIsNotBitReversal : Obligations.ByteReversalIsNotBitReversal := by
  unfold Obligations.ByteReversalIsNotBitReversal
  refine ⟨fun v i k => by rw [lane_reverse32], by decide, by decide, by decide, by decide, by decide, by decide,
    by decide, by decide, by decide, 0x00000001#32, 24, by decide, by decide⟩

/-! ### Derived laws (section 3) -/

/-- Settles O12: the reversal is its own inverse. -/
theorem reversalIsBijective : Obligations.ReversalIsBijective :=
  Function.Involutive.bijective reverse32_reverse32

/-- The value that reads the same in both byte orders, from its two outer and its two inner bytes. -/
def palindrome (p : Byte × Byte) : Word32 := ofBytes p.1 p.2 p.2 p.1

theorem reverse32_palindrome (p : Byte × Byte) : reverse32 (palindrome p) = palindrome p :=
  reverse32_ofBytes _ _ _ _

theorem palindrome_injective : Function.Injective palindrome := by
  intro p q h
  have houter : lane (palindrome p) 0 = lane (palindrome q) 0 := by rw [h]
  have hinner : lane (palindrome p) 1 = lane (palindrome q) 1 := by rw [h]
  simp only [palindrome, lane_zero_ofBytes, lane_one_ofBytes] at houter hinner
  exact Prod.ext houter hinner

theorem palindrome_lanes {v : Word32} (houter : lane v 0 = lane v 3) (hinner : lane v 1 = lane v 2) :
    palindrome (lane v 3, lane v 2) = v := by
  have hv := ofBytes_lanes v
  rwa [houter, hinner] at hv

/-- The reversal keeps a value where its opposite lanes agree. -/
theorem reverse32_eq_self_iff (v : Word32) : reverse32 v = v ↔ lane v 0 = lane v 3 ∧ lane v 1 = lane v 2 := by
  constructor
  · intro h
    exact ⟨(lane_reverse32 v 3).symm.trans (by rw [h]), (lane_reverse32 v 2).symm.trans (by rw [h])⟩
  · rintro ⟨houter, hinner⟩
    rw [← palindrome_lanes houter hinner, reverse32_palindrome]

theorem fixedPoints_eq_range : {v : Word32 | reverse32 v = v} = Set.range palindrome := by
  ext v
  constructor
  · intro hv
    obtain ⟨houter, hinner⟩ := (reverse32_eq_self_iff v).mp hv
    exact ⟨_, palindrome_lanes houter hinner⟩
  · rintro ⟨p, rfl⟩
    exact reverse32_palindrome p

theorem card_byte : Nat.card Byte = 256 := by
  rw [Nat.card_congr BitVec.equivFin.toEquiv, Nat.card_fin]
  rfl

/-- Settles O13: a palindrome is a free choice of two bytes, 256 * 256 of them. -/
theorem fixedPointsArePalindromes : Obligations.FixedPointsArePalindromes := by
  unfold Obligations.FixedPointsArePalindromes
  refine ⟨reverse32_eq_self_iff, ?_, fun v _ => reverse32_reverse32 v⟩
  rw [fixedPoints_eq_range, Set.ncard_range_of_injective palindrome_injective, Nat.card_prod, card_byte]

/-- The map of bit positions only permutes them. -/
theorem map_sourceBit_perm : ((List.range 32).map sourceBit).Perm (List.range 32) := by decide

/-- The reversal moves the 1 bits and keeps their number. -/
theorem countP_reverse32 (a : Word32) :
    (List.range 32).countP (fun i => (reverse32 a).getLsbD i) = (List.range 32).countP fun i => a.getLsbD i := by
  rw [← map_sourceBit_perm.countP_eq fun i => a.getLsbD i, List.countP_map]
  apply List.countP_congr
  intro i hi
  have hi : i < 32 := List.mem_range.mp hi
  rw [Function.comp_apply, sourceBit_eq hi, reverse32_getLsbD a hi]

/-- Settles O14: a bitwise operator acts on each byte alone; a sum and an order do not, as bytes 0xFF and 0x01 show. -/
theorem reversalCommutesBitwise : Obligations.ReversalCommutesBitwise := by
  unfold Obligations.ReversalCommutesBitwise
  refine ⟨fun v w => ?_, countP_reverse32, ⟨0xFF#32, 0x01#32, by decide⟩, ⟨0xFF#32, 0x100#32, by decide⟩⟩
  obtain ⟨a, b, c, d, rfl⟩ := exists_ofBytes v
  obtain ⟨a', b', c', d', rfl⟩ := exists_ofBytes w
  simp only [ofBytes_and, ofBytes_or, ofBytes_xor, ofBytes_not, reverse32_ofBytes, and_self]

/-- Settles O15: the second copy reverses the reversed operand, or is not told of a number. -/
theorem cascadeIsIdentity : Obligations.CascadeIsIdentity := by
  unfold Obligations.CascadeIsIdentity
  intro d x y
  have hvalid : cascade true d x y = .number (norm32 d) := by
    rw [cascade, portResponse_true, number_outValid, number_outData, portResponse_true, operand_word,
      reverse32_reverse32, operand]
  have hinvalid : cascade false d x y = .noResult y := by
    rw [cascade, portResponse_false, noResult_outValid, portResponse_false]
  exact ⟨hvalid, hinvalid, by rw [hinvalid, noResult_toOption]⟩

end Sys2Proof.Machine

/-! SUPPORT. The reference functions beside the block: what the formatters write (41_formatters.md) and how the literal
they write is read, and that a listing (30_encoding.md section 4) drives the block with request words only. -/

namespace Sys2Proof.Machine

/-! ### The digits of a byte -/

theorem norm32_word (w : Word32) : norm32 (w.toNat : Int) = w := operand_word w

theorem hexDigit_ne_space (n : BitVec 4) : hexDigit n ≠ ' ' := by
  revert n
  decide

theorem hexDigit_ne_underscore (n : BitVec 4) : hexDigit n ≠ '_' := by
  revert n
  decide

theorem digitValue_hexDigit (n : BitVec 4) : digitValue (hexDigit n) = some n.toNat := by
  revert n
  decide

/-- A field inside a lane is a field of the value. -/
theorem lane_extractLsb' (v : Word32) (i : Fin 4) {start len : Nat} (h : start + len ≤ 8) :
    (lane v i).extractLsb' start len = v.extractLsb' (8 * i.val + start) len := by
  apply BitVec.eq_of_getLsbD_eq
  intro k hk
  rw [BitVec.getLsbD_extractLsb', BitVec.getLsbD_extractLsb', lane_getLsbD _ _ _ (by omega), Nat.add_assoc]

/-- The digits of a lane are the digits of two neighbouring nibbles of the value, the higher one first. -/
theorem hex2_lane (v : Word32) (i : Fin 4) :
    hex2 (lane v i) = [hexDigit (nibble v (2 * i.val + 1)), hexDigit (nibble v (2 * i.val))] := by
  have hhigh : 4 * (2 * i.val + 1) = 8 * i.val + 4 := by omega
  have hlow : 4 * (2 * i.val) = 8 * i.val + 0 := by omega
  rw [hex2, nibble, nibble, hhigh, hlow, lane_extractLsb' v i (by decide), lane_extractLsb' v i (by decide)]

theorem filter_hex2 (b : Byte) : (hex2 b).filter (fun ch => ch != ' ') = hex2 b := by
  simp [hex2, hexDigit_ne_space]

/-! ### `displayBytes` and `toHex` -/

/-- What `displayBytes` writes: the big-endian bytes with single spaces between. -/
theorem displayBytes_eq (n : Int) :
    displayBytes n = [' '].intercalate ((bytesBE (norm32 n)).toList.map hex2) := by
  simp [displayBytes, bytesBE, List.intercalate]

theorem displayBytes_length (n : Int) : (displayBytes n).length = 11 := rfl

/-- The big-endian bytes of the reversed value are the little-endian bytes of the value. -/
theorem bytesBE_reverse32 (v : Word32) : bytesBE (reverse32 v) = bytesLE v := by
  simp only [bytesBE, lane_reverse32]
  rfl

/-- Settles O45: the text follows the bytes, and reversing a value exchanges the two orders of its bytes. -/
theorem displayBytesSpellsBigEndian : Obligations.DisplayBytesSpellsBigEndian := by
  unfold Obligations.DisplayBytesSpellsBigEndian
  refine ⟨fun n => ⟨displayBytes_eq n, displayBytes_length n⟩, fun v => ?_⟩
  rw [displayBytes_eq, norm32_word, bytesBE_reverse32]

/-- What `toHex` writes after the prefix are the digits of the bytes, the most significant first. -/
theorem toHex_eq (n : Int) :
    toHex n = '0' :: 'x' :: (hex2 (lane (norm32 n) 3) ++ hex2 (lane (norm32 n) 2) ++ hex2 (lane (norm32 n) 1) ++
      hex2 (lane (norm32 n) 0)) := by
  simp only [hex2_lane]
  rfl

theorem filter_displayBytes (n : Int) :
    (displayBytes n).filter (fun ch => ch != ' ') =
      hex2 (lane (norm32 n) 3) ++ hex2 (lane (norm32 n) 2) ++ hex2 (lane (norm32 n) 1) ++ hex2 (lane (norm32 n) 0) := by
  have hspace : [' '].filter (fun ch => ch != ' ') = [] := by decide
  simp only [displayBytes, List.filter_append, filter_hex2, hspace, List.append_nil]

/-- Settles O46: without the spaces the bytes' digits are left. -/
theorem toHexSpellsTheSameDigits : Obligations.ToHexSpellsTheSameDigits := by
  unfold Obligations.ToHexSpellsTheSameDigits
  exact fun n => ⟨rfl, by rw [toHex_eq, filter_displayBytes]⟩

/-! ### Reading a literal -/

/-- Reading the digits of nibbles takes them into the value, most significant first. -/
theorem readDigits_map_hexDigit (ns : List (BitVec 4)) (acc : Nat) :
    readDigits 16 acc (ns.map hexDigit) = some (ns.foldl (fun value digit => value * 16 + digit.toNat) acc) := by
  induction ns generalizing acc with
  | nil => rfl
  | cons n ns ih =>
    rw [List.map_cons, readDigits, digitValue_hexDigit]
    simp only [n.isLt, if_true, ih, List.foldl_cons]

/-- The nibbles of a value, most significant first. -/
def nibbles (v : Word32) : List (BitVec 4) := [7, 6, 5, 4, 3, 2, 1, 0].map (nibble v)

theorem toHex_word (v : Word32) : toHex v.toNat = '0' :: 'x' :: (nibbles v).map hexDigit := by
  rw [toHex, norm32_word, nibbles, List.map_map]
  rfl

/-- Reading one more digit: the nibble `k` goes below the part of the value above it. -/
theorem div_mul_add_nibble (v : Word32) (k : Nat) :
    v.toNat / 2 ^ (4 * (k + 1)) * 16 + (nibble v k).toNat = v.toNat / 2 ^ (4 * k) := by
  have hpow : 2 ^ (4 * (k + 1)) = 2 ^ (4 * k) * 16 := by rw [Nat.mul_succ, Nat.pow_add]
  rw [hpow, ← Nat.div_div_eq_div_mul, nibble, BitVec.extractLsb'_toNat, Nat.shiftRight_eq_div_pow]
  exact Nat.div_add_mod' _ 16

/-- Reading the nibbles below nibble `n`, after the part of the value from it upwards, gives the value. -/
theorem foldl_nibble_range (v : Word32) (n : Nat) :
    ((List.range n).reverse.map (nibble v)).foldl (fun value digit => value * 16 + digit.toNat) (v.toNat / 2 ^ (4 * n)) =
      v.toNat := by
  induction n with
  | zero => exact Nat.div_one _
  | succ n ih =>
    rw [List.range_succ, List.reverse_append, List.reverse_singleton, List.singleton_append, List.map_cons,
      List.foldl_cons, div_mul_add_nibble, ih]

theorem foldl_nibbles (v : Word32) : (nibbles v).foldl (fun value digit => value * 16 + digit.toNat) 0 = v.toNat := by
  have htop : v.toNat / 2 ^ (4 * 8) = 0 := Nat.div_eq_of_lt v.isLt
  have h := foldl_nibble_range v 8
  rwa [htop] at h

/-- A literal of hexadecimal digits is read digit by digit; it has no separator to drop. -/
theorem parseLiteral_hexDigits (n : BitVec 4) (ns : List (BitVec 4)) :
    parseLiteral ('0' :: 'x' :: (n :: ns).map hexDigit) = readDigits 16 0 ((n :: ns).map hexDigit) := by
  have hkeep : ('0' :: 'x' :: (n :: ns).map hexDigit).filter (fun ch => ch != '_') =
      '0' :: 'x' :: (n :: ns).map hexDigit := by
    simp [List.filter_eq_self, hexDigit_ne_underscore]
  rw [parseLiteral, hkeep]
  rfl

/-- Settles O47: the digits written are those of the nibbles, and the nibbles make the value. -/
theorem literalOfToHexIsTheValue : Obligations.LiteralOfToHexIsTheValue := by
  unfold Obligations.LiteralOfToHexIsTheValue
  intro v
  calc parseLiteral (toHex v.toNat)
      = parseLiteral ('0' :: 'x' :: (nibbles v).map hexDigit) := by rw [toHex_word]
    _ = readDigits 16 0 ((nibbles v).map hexDigit) := parseLiteral_hexDigits _ _
    _ = some v.toNat := by rw [readDigits_map_hexDigit, foldl_nibbles]

/-! ### Listings -/

/-- Settles O48: a literal is compared with the port; a result is a 32-bit value, which every port carries. -/
theorem listingOperandsResolve : Obligations.ListingOperandsResolve := by
  unfold Obligations.ListingOperandsResolve
  refine fun c env => ⟨fun n hn => ?_, fun n hn => ?_, fun k w hk => ⟨?_, word32_fits_port c w, operand_word w⟩,
    fun k hk => ?_⟩
  · rw [resolveOperand, if_pos hn]
  · rw [resolveOperand, if_neg (Nat.not_lt.mpr hn)]
  · simp only [resolveOperand, hk]
  · simp only [resolveOperand, hk]

/-- A request made of an operand carries a number that fits the port, or the operand does not resolve. -/
theorem map_resolveOperand_cases (c : Config) (env : ListingResults) (x : ListingOperand) (f : Nat → Instr)
    (hf : ∀ d, (f d).inData = d) :
    (∃ i, i.wellFormed c = true ∧ (resolveOperand c env x).map f = .ok i) ∨
      ∃ e, e ≠ .stopped ∧ (resolveOperand c env x).map f = .error e := by
  obtain ⟨n, hn, hx⟩ | ⟨e, he, hx⟩ := resolveOperand_cases c env x
  · refine .inl ⟨f n, ?_, by rw [hx]; rfl⟩
    rw [wellFormed_iff, hf]
    exact hn
  · exact .inr ⟨e, he, by rw [hx]; rfl⟩

/-- Everything a line can be: a request that is well formed for the instance, or an error that is not the block's. -/
theorem lineInstr_cases (c : Config) (env : ListingResults) (anyData : Nat) (op : ListingOp) :
    (∃ i, i.wellFormed c = true ∧ lineInstr c env anyData op = .ok i) ∨
      ∃ e, e ≠ .stopped ∧ lineInstr c env anyData op = .error e := by
  cases op with
  | rev32 x => exact map_resolveOperand_cases c env x .rev32 rev32_inData
  | be2le x => exact map_resolveOperand_cases c env x .rev32 rev32_inData
  | le2be x => exact map_resolveOperand_cases c env x .rev32 rev32_inData
  | invalid x =>
    cases x with
    | some x => exact map_resolveOperand_cases c env x .invalid invalid_inData
    | none => exact .inl ⟨_, (wellFormed_iff c _).mpr (Nat.mod_lt _ (Nat.two_pow_pos _)), rfl⟩

/-- The word of a well-formed request is a request word, so presenting it gets a response. -/
theorem step_present_encode (s : State) (i : Instr) (hi : i.wellFormed s.cfg = true) :
    ∃ t, step (s.present (encode s.cfg i)) = .next t := by
  have hw : s.cfg.isRequestWord (encode s.cfg i) = true := by
    cases i with
    | rev32 d => exact Laws.EncodingFits.rev32 d s.cfg hi
    | invalid d => exact Laws.EncodingFits.invalid d s.cfg hi
  obtain ⟨t, ht, -⟩ := step_answersExactly (s.present (encode s.cfg i)) _ s.requests rfl hw
  exact ⟨t, ht⟩

/-- Settles O49: every line either fails for what it says or presents a request word, which is answered. -/
theorem listingNeverStopsTheBlock : Obligations.ListingNeverStopsTheBlock := by
  unfold Obligations.ListingNeverStopsTheBlock
  intro anyData lines
  induction lines with
  | nil => exact fun env s h => nomatch h
  | cons l rest ih =>
    intro env s
    rw [runListing]
    obtain ⟨i, hi, hline⟩ | ⟨e, he, hline⟩ := lineInstr_cases s.cfg env anyData l.op
    · obtain ⟨t, ht⟩ := step_present_encode s i hi
      simp only [hline, ht]
      exact ih _ t
    · simpa only [hline, ne_eq, Except.error.injEq] using he

end Sys2Proof.Machine
